-- ==== Sys2Proof/Word.lean ====
section
/-! DEFINITION. The words of OSQAr TSC: the 40-bit command and response words, their 16-bit fields and the bytes of a
byte-wide transport (30_encoding.md R70, R76; 20_memory.md R51). -/

namespace Sys2Proof

/-- One byte of a byte-wide transport (R51). -/
abbrev Byte := BitVec 8

/-- A 16-bit field: operand A or B of a command, D0 or D1 of a response, a sample slot, a threshold. -/
abbrev Half := BitVec 16

/-- The 40-bit command word `(OP, B, A)` (R70). -/
abbrev CmdWord := BitVec 40

/-- The 40-bit response word (R76). -/
abbrev RspWord := BitVec 40

end Sys2Proof
end

