-- ==== Sys2Proof/Machine/Primitives.lean ====
section
/-! DEFINITION. The pseudocode primitives of 00_scope.md R7 to R9: fields, sign and zero extension, bit patterns, the two
divisions and the clamp. -/

namespace Sys2Proof.Machine

/-- `bits_16(i)`: the 16-bit two's-complement pattern of an integer (R8). R8 defines it on -32768..65535; see log entry 14
for the rest, which no rule reaches. -/
def bits16 (i : Int) : BitVec 16 := BitVec.ofInt 16 i

/-- `bits_32(i)` (R8). -/
def bits32 (i : Int) : BitVec 32 := BitVec.ofInt 32 i

/-- `sext_16(v)`: the low 16 bits read as a two's-complement number (R8). -/
def sext16 (v : BitVec 16) : Int := v.toInt

/-- `sext_32(v)` (R8). -/
def sext32 (v : BitVec 32) : Int := v.toInt

/-- `zext_16(v)`: the low 16 bits read as an unsigned number (R8). -/
def zext16 (v : BitVec 16) : Nat := v.toNat

/-- `udiv(a, b)`, the quotient rounded down, for `b > 0` (R9). -/
def udiv (a b : Nat) : Nat := a / b

/-- `tdiv(a, b)`, the quotient rounded toward zero, for `b > 0`: `udiv(a, b)` for `a ≥ 0`, else `-udiv(-a, b)` (R9; the
spec marks the direction as general knowledge, I18: log entry 9). -/
def tdiv (a : Int) (b : Nat) : Int := if 0 ≤ a then Int.ofNat (udiv a.natAbs b) else -Int.ofNat (udiv a.natAbs b)

/-- `clamp(v, lo, hi)` (R9). -/
def clamp (v lo hi : Int) : Int := if v < lo then lo else if v > hi then hi else v

end Sys2Proof.Machine
end

