-- ==== Sys2Proof/Machine/Operands.lean ====
section
/-! DEFINITION. The fields of a command word and how operands are assembled from them (30_encoding.md R70, R72), and the
byte order of a byte-wide transport (20_memory.md R51). -/

namespace Sys2Proof.Machine

/-- OP, bits [39:32] (R70). -/
def opField (w : CmdWord) : BitVec 8 := w.extractLsb' 32 8

/-- B, bits [31:16] (R70). -/
def bField (w : CmdWord) : BitVec 16 := w.extractLsb' 16 16

/-- A, bits [15:0] (R70). -/
def aField (w : CmdWord) : BitVec 16 := w.extractLsb' 0 16

/-- `cmd = (OP, B, A)`, OP in the more significant bits (R70). -/
def cmdWord (op : BitVec 8) (b a : BitVec 16) : CmdWord := op ++ (b ++ a)

/-- An operand assembled as `zext_16(A)`: a raw code or an index (R72). -/
def unsignedA (w : CmdWord) : Nat := zext16 (aField w)

/-- An operand assembled as `sext_16(A)`: a sample, CINIT's high, a value (R72). -/
def signedA (w : CmdWord) : Int := sext16 (aField w)

/-- An operand assembled as `sext_16(B)`: CINIT's low (R72). -/
def signedB (w : CmdWord) : Int := sext16 (bField w)

/-- The field that holds an unsigned operand. -/
def fieldOfUnsigned (n : Nat) : BitVec 16 := BitVec.ofNat 16 n

/-- The field that holds a signed operand, `bits_16` of it (R79). -/
def fieldOfSigned (i : Int) : BitVec 16 := bits16 i

/-- Byte `k` of a word is bits [8k+7 : 8k] (R51). -/
def wordByte (w : BitVec 40) (k : Nat) : Byte := w.extractLsb' (8 * k) 8

/-- The five bytes of a word, byte 0 first (R51). -/
def bytesOfWord (w : BitVec 40) : List Byte := [wordByte w 0, wordByte w 1, wordByte w 2, wordByte w 3, wordByte w 4]

/-- The word whose bytes came in the order `b0` first (R51). -/
def wordOfBytes (b0 b1 b2 b3 b4 : Byte) : BitVec 40 := b4 ++ (b3 ++ (b2 ++ (b1 ++ b0)))

end Sys2Proof.Machine
end

