-- ==== Sys2Proof/Syntax.lean ====
section
/-! DEFINITION. The eight commands of the opcode map (30_encoding.md R73), with the operands as R72 types them: a raw code
or a register index is an unsigned integer, a sample, threshold or value a signed one. A field the operation does not use
(R75) is no operand. -/

namespace Sys2Proof

/-- The commands, one constructor per row of spec/opcode_table.json. -/
inductive Instr where
  /-- OP 0x00, no operation (R162). -/
  | nop
  /-- OP 0x01, convert one raw code (R105). -/
  | conv (raw : Nat)
  /-- OP 0x02, feed one sample to the filter (R126). -/
  | fupd (sample : Int)
  /-- OP 0x03, reset the filter (R127). -/
  | frst
  /-- OP 0x04, set the thresholds, high in A and low in B (R142). -/
  | cinit (high low : Int)
  /-- OP 0x05, evaluate one value (R143). -/
  | ceval (value : Int)
  /-- OP 0x06, one raw code through the whole pipeline (R160). -/
  | proc (raw : Nat)
  /-- OP 0x07, read one register of the map (R161). -/
  | rdreg (index : Nat)
  deriving DecidableEq, Repr

end Sys2Proof
end

