-- ==== Sys2Proof/WellFormed.lean ====
section
/-! DEFINITION. The operand ranges of 30_encoding.md R72 and R78: an unsigned operand is 0..65535, a signed one
-32768..32767; "an operand out of its range is an assembly error, not a command". -/

namespace Sys2Proof

/-- An operand assembled by `zext_16` (R72). -/
def inUnsigned16 (n : Nat) : Bool := decide (n ≤ 65535)

/-- An operand assembled by `sext_16` (R72). -/
def inSigned16 (i : Int) : Bool := decide (-32768 ≤ i) && decide (i ≤ 32767)

/-- Every operand lies in its field's range. A register index above 0x000B is in range: RDREG then fails with ERR_BADREG
(R161), and thresholds with `low > high` are in range: CINIT then fails (R142). -/
def Instr.wellFormed : Instr → Bool
  | .nop => true
  | .conv raw => inUnsigned16 raw
  | .fupd sample => inSigned16 sample
  | .frst => true
  | .cinit high low => inSigned16 high && inSigned16 low
  | .ceval value => inSigned16 value
  | .proc raw => inUnsigned16 raw
  | .rdreg index => inUnsigned16 index

end Sys2Proof
end

