-- ==== Sys2Proof/Decode.lean ====
section
/-! DEFINITION. Decoding a command word (30_encoding.md R70 to R75, R80) and the encoder written from the same tables
(R79). Decoding is total: every word is a command or is rejected by name. -/

namespace Sys2Proof

open Sys2Proof.Machine

/-- Why bytes are no command. -/
inductive DecodeError where
  /-- OP is in 0x08..0xFF: the word is illegal (R74). -/
  | illegalOp (op : BitVec 8)
  /-- A command is exactly five bytes on a byte-wide transport (R51, R71); this many came. -/
  | notFiveBytes (count : Nat)
  deriving DecidableEq, Repr

/-- The command a 40-bit word stands for: "the OP field alone selects the operation" (R71), operands as R80 assembles
them. -/
def decodeWord (w : CmdWord) : Except DecodeError Instr :=
  match (opField w).toNat with
  | 0x00 => .ok .nop
  | 0x01 => .ok (.conv (unsignedA w))
  | 0x02 => .ok (.fupd (signedA w))
  | 0x03 => .ok .frst
  | 0x04 => .ok (.cinit (signedA w) (signedB w))
  | 0x05 => .ok (.ceval (signedA w))
  | 0x06 => .ok (.proc (unsignedA w))
  | 0x07 => .ok (.rdreg (unsignedA w))
  | _ => .error (.illegalOp (opField w))

/-- The command that five bytes stand for, least significant byte first (R51). -/
def decodeBytes : List Byte → Except DecodeError Instr
  | [b0, b1, b2, b3, b4] => decodeWord (wordOfBytes b0 b1 b2 b3 b4)
  | bytes => .error (.notFiveBytes bytes.length)

/-- The operation code of each mnemonic (R73). -/
def opcode : Instr → BitVec 8
  | .nop => 0x00#8
  | .conv _ => 0x01#8
  | .fupd _ => 0x02#8
  | .frst => 0x03#8
  | .cinit _ _ => 0x04#8
  | .ceval _ => 0x05#8
  | .proc _ => 0x06#8
  | .rdreg _ => 0x07#8

/-- Field A of a command; "an ignored field is assembled as 0" (R78, R79). -/
def operandA : Instr → BitVec 16
  | .nop => 0#16
  | .conv raw => fieldOfUnsigned raw
  | .fupd sample => fieldOfSigned sample
  | .frst => 0#16
  | .cinit high _ => fieldOfSigned high
  | .ceval value => fieldOfSigned value
  | .proc raw => fieldOfUnsigned raw
  | .rdreg index => fieldOfUnsigned index

/-- Field B of a command: CINIT's low threshold, 0 for every other command (R75, R78). -/
def operandB : Instr → BitVec 16
  | .cinit _ low => fieldOfSigned low
  | .nop => 0#16
  | .conv _ => 0#16
  | .fupd _ => 0#16
  | .frst => 0#16
  | .ceval _ => 0#16
  | .proc _ => 0#16
  | .rdreg _ => 0#16

/-- "Each mnemonic assembles to exactly one command word" (R79). -/
def encode (i : Instr) : CmdWord := cmdWord (opcode i) (operandB i) (operandA i)

/-- The bits of a word that its operation uses: OP always, B for CINIT only, A for all but NOP and FRST (R75). -/
def usedBits (op : BitVec 8) : BitVec 40 :=
  match op.toNat with
  | 0x00 => 0xFF00000000#40
  | 0x03 => 0xFF00000000#40
  | 0x04 => 0xFFFFFFFFFF#40
  | _ => 0xFF0000FFFF#40

/-- The instruction the decoder reads from the low `nbits` bits of `w`, laid out as five little-endian bytes (R51); the
bits above `nbits` are 0. No command is longer than 40 bits (R71). -/
def decodeTableWord (nbits w : Nat) : Option Instr :=
  if nbits ≤ 40 then
    match decodeBytes (bytesOfWord (BitVec.ofNat 40 (w % 2 ^ nbits))) with
    | .ok i => some i
    | .error _ => none
  else none

end Sys2Proof
end

