-- ==== Sys2Proof/Config.lean ====
section
/-! DEFINITION. What an implementation of the block fixes and the spec leaves OPEN: the latency LAT (00_scope.md R5,
70_reset_and_hazards.md R240, D25). The parameters the spec fixes stand in Machine/Params.lean. -/

namespace Sys2Proof

/-- A free value (log entry 3): how many rising edges BEYOND the first pass between the acceptance of the `n`-th command
and its execution. "An implementation may take a different LAT for different commands or different occurrences of one
command" (R240), so it is a function of the occurrence; nothing in the model knows a value of it.
DESIGN CHOICE, unsafe for a claim that compares two runs or two instances: the spec relates no instance's LAT to another's and lets
LAT depend on the command, but this one function is read by every instance at its own count, so two instances (or two runs of one)
with equal counts take the same LAT for their next command, whatever it is (log entries 3 and 17). -/
opaque Config.latExtra : Nat → Nat

/-- LAT of the `n`-th accepted command: "LAT ≥ 1" (R5, R240). -/
def Config.lat (n : Nat) : Nat := Config.latExtra n + 1

end Sys2Proof
end

