-- ==== Sys2Proof/Machine/State.lean ====
section
/-! DEFINITION. The state of the block (10_state.md R22), its reset (R35), and the reasons a step could stop. State is
plain data. -/

namespace Sys2Proof.Machine

/-- The ring buffer FBUF[0..4], five 16-bit signed slots (R23). -/
structure SampleRing where
  slot0 : BitVec 16
  slot1 : BitVec 16
  slot2 : BitVec 16
  slot3 : BitVec 16
  slot4 : BitVec 16
  deriving DecidableEq, Repr

/-- CSTATE, "one of exactly two values" (R29). -/
inductive CState where
  /-- Encoded 0. -/
  | Safe
  /-- Encoded 1. -/
  | Unsafe
  deriving DecidableEq, Repr

/-- PHASE (R33). BUSY holds the transfer in progress: the captured command word (R234) and how many rising edges still
pass before the one that executes it (R235; log entry 4). -/
inductive Phase where
  /-- The block accepts a command. -/
  | idle
  /-- It has accepted `cmd`; `wait` more edges pass before the edge that executes it. -/
  | busy (cmd : CmdWord) (wait : Nat)
  /-- It presents RSPQ until the host takes it. -/
  | resp
  deriving DecidableEq, Repr

/-- The input ports at one rising edge of clk (R230). -/
structure Pins where
  rst : Bool
  cmdValid : Bool
  cmdWord : CmdWord
  rspReady : Bool
  deriving DecidableEq, Repr

/-- An edge at which the host makes no move: no reset, no command offered, no response taken (R238; log entry 2). -/
def Pins.quiet : Pins := { rst := false, cmdValid := false, cmdWord := 0#40, rspReady := false }

/-- The registers of R22 and, last, the model's own fields, which are no registers of the block. -/
structure State where
  /-- FBUF[0..4], the ring buffer (R23). -/
  fbuf : SampleRing
  /-- FSUM, the running sum, 32 bits signed (R24). -/
  fsum : BitVec 32
  /-- FCOUNT, samples accepted since the last filter reset, 0..5 (R25; log entry 5). -/
  fcount : Fin 6
  /-- FIDX, the next-write index, 0..4 (R26; log entry 5). -/
  fidx : Fin 5
  /-- CHIGH, the high threshold, 16 bits signed (R28). -/
  chigh : BitVec 16
  /-- CLOW, the low threshold, 16 bits signed (R28). -/
  clow : BitVec 16
  /-- CSTATE (R29). -/
  cstate : CState
  /-- CVALID, a CINIT has succeeded since reset (R30). -/
  cvalid : Bool
  /-- ERRF, the sticky error flags (R32). -/
  errf : BitVec 5
  /-- RSPQ, the response word (R33). -/
  rspq : RspWord
  /-- PHASE of the handshake (R33). -/
  phase : Phase
  /-- Host side: what the host will drive at the coming rising edges, first one first (log entry 1). -/
  inputs : List Pins
  /-- Host side: the command words executed since the last reset, oldest first (R241; log entry 6). -/
  executed : List CmdWord
  /-- Host side: the response words taken since the last reset, oldest first (R241; log entry 6). -/
  taken : List RspWord
  /-- The model's counter of accepted commands, at which the free value LAT is read (R240; log entry 3). -/
  latTick : Nat
  deriving DecidableEq, Repr

/-- Why the machine would stop with a fault. There is no such reason: "the block has no traps" (R200), every error is an
in-band response after which the next command runs (R203, R205), and "the step is total" (R80). The type is empty
(log entry 15; safe). -/
inductive Fault where
  deriving DecidableEq, Repr

/-- Why an instruction would get no meaning. -/
inductive Refusal where
  /-- Raised only by an arm of `exec` whose instruction has no meaning yet; no arm is left so (safe). -/
  | notModelled (mnemonic : String)
  deriving DecidableEq, Repr

/-- The ring buffer after a filter reset: every slot 0 (R35, R127). -/
def SampleRing.zero : SampleRing := { slot0 := 0#16, slot1 := 0#16, slot2 := 0#16, slot3 := 0#16, slot4 := 0#16 }

/-- The machine right after reset (R35). The host has no move listed (log entry 1). -/
def State.reset : State :=
  { fbuf := SampleRing.zero, fsum := 0#32, fcount := 0, fidx := 0, chigh := 0#16, clow := 0#16, cstate := .Safe, cvalid := false,
    errf := 0#5, rspq := 0#40, phase := .idle, inputs := [], executed := [], taken := [], latTick := 0 }

end Sys2Proof.Machine
end

