-- ==== Sys2Proof/Machine/Flags.lean ====
section
/-! DEFINITION. The status codes (60_exceptions.md R201), the flags READY and STATE (10_state.md R34) and the response word
they travel in (30_encoding.md R76). The block has no condition codes. -/

namespace Sys2Proof.Machine

/-- The errors of R201. -/
inductive ErrorKind where
  /-- OP in 0x08..0xFF. -/
  | illegal
  /-- CINIT with low > high while CVALID = 0. -/
  | thresh
  /-- CEVAL or PROC while CVALID = 0. -/
  | uninit
  /-- RDREG with an index above 0x000B. -/
  | badreg
  /-- CINIT while CVALID = 1. -/
  | reinit
  deriving DecidableEq, Repr

/-- What a command ends with: OK or one error (R201). -/
inductive Status where
  | ok
  | err (e : ErrorKind)
  deriving DecidableEq, Repr

/-- The number of an error, 1..5 (R201). -/
def ErrorKind.code : ErrorKind → Nat
  | .illegal => 1
  | .thresh => 2
  | .uninit => 3
  | .badreg => 4
  | .reinit => 5

/-- The STATUS field (R201). -/
def Status.code : Status → Nat
  | .ok => 0
  | .err e => e.code

/-- The ERRF bit of an error, `1 << (k - 1)` for STATUS k (R202). -/
def ErrorKind.errfBit (e : ErrorKind) : BitVec 5 := 1#5 <<< (e.code - 1)

/-- The STATE flag: Safe is 0, Unsafe is 1 (R29, R76). -/
def CState.bit : CState → BitVec 1
  | .Safe => 0#1
  | .Unsafe => 1#1

/-- A one-bit flag of a register or a response. -/
def flagBit (b : Bool) : BitVec 1 := BitVec.ofBool b

/-- The word `respond(status, ready, state, d1, d0)` forms: STATUS[39:36], READY[35], STATE[34], RSV[33:32] = 0, D1[31:16],
D0[15:0] (R76). -/
def responseWord (status : Status) (ready : Bool) (state : CState) (d1 d0 : Int) : RspWord :=
  BitVec.ofNat 4 status.code ++ (flagBit ready ++ (state.bit ++ (0#2 ++ (bits16 d1 ++ bits16 d0))))

/-- STATUS, bits [39:36] (R76). -/
def rspStatus (w : RspWord) : BitVec 4 := w.extractLsb' 36 4
/-- READY, bit [35] (R76). -/
def rspReadyFlag (w : RspWord) : BitVec 1 := w.extractLsb' 35 1
/-- STATE, bit [34] (R76). -/
def rspStateFlag (w : RspWord) : BitVec 1 := w.extractLsb' 34 1
/-- RSV, bits [33:32] (R76). -/
def rspRsv (w : RspWord) : BitVec 2 := w.extractLsb' 32 2
/-- D1, bits [31:16] (R76). -/
def rspD1 (w : RspWord) : BitVec 16 := w.extractLsb' 16 16
/-- D0, bits [15:0] (R76). -/
def rspD0 (w : RspWord) : BitVec 16 := w.extractLsb' 0 16

end Sys2Proof.Machine
end

