-- ==== Sys2Proof/Machine/Params.lean ====
section
/-! DEFINITION. The implementation parameters whose value 00_scope.md R5 fixes ("taken as normative, exactly as
written", I6). LAT, the open one, is in Config.lean. FILT_N = 5, the widths and N_CH = 1 are in the types of State. -/

namespace Sys2Proof.Machine

/-- The largest valid raw code; larger inputs are clamped to it. -/
abbrev rawMax : Nat := 4095
/-- The temperature of raw 0 and the lower output clamp, in tenths of a degree. -/
abbrev tMin : Int := -400
/-- The temperature of raw 4095 and the upper output clamp. -/
abbrev tMax : Int := 1250
/-- T_MAX - T_MIN, the multiplier of the conversion. -/
abbrev tSpan : Nat := 1650
/-- DIV, the divisor of the conversion. -/
abbrev convDiv : Nat := 4095
/-- BIAS, the rounding bias. -/
abbrev convBias : Nat := 2047
/-- FILT_N, the ring buffer's capacity and the averaging divisor. -/
abbrev filtN : Nat := 5

end Sys2Proof.Machine
end

