-- ==== Sys2Proof/Machine/Ops.lean ====
section
/-! DEFINITION. The operations the meanings share: the ring buffer's slots, the response, raising an error (60_exceptions.md
R200 to R203: the block's only form of exception, with nothing to return from, R205), and the register view (20_memory.md
R55). -/

namespace Sys2Proof.Machine

/-- `FBUF[i]` (R10, R23). -/
def SampleRing.get (b : SampleRing) (i : Fin 5) : BitVec 16 :=
  match i with
  | 0 => b.slot0
  | 1 => b.slot1
  | 2 => b.slot2
  | 3 => b.slot3
  | 4 => b.slot4

/-- `FBUF[i] <- v` (R10, R23). -/
def SampleRing.set (b : SampleRing) (i : Fin 5) (v : BitVec 16) : SampleRing :=
  match i with
  | 0 => { b with slot0 := v }
  | 1 => { b with slot1 := v }
  | 2 => { b with slot2 := v }
  | 3 => { b with slot3 := v }
  | 4 => { b with slot4 := v }

/-- `respond(status, ready, state, d1, d0)`: the response word becomes the command's response, in RSPQ (R11, R235). -/
def respond (status : Status) (ready : Bool) (state : CState) (d1 d0 : Int) (s : State) : State :=
  { s with rspq := responseWord status ready state d1 d0 }

/-- `raise E`: the ERRF bit of `E` is set, nothing else of the state changes, and the response is
`respond(k, 0, CSTATE, 0, 0)` (R202, R203). There is no handler to enter and no state to restore (R200, R205). -/
def raiseError (e : ErrorKind) (s : State) : State :=
  respond (.err e) false s.cstate 0 0 { s with errf := s.errf ||| e.errfBit }

/-- `value32(index)` of the register map; `none` where the index names nothing (R55). -/
def value32 (index : Nat) (s : State) : Option (BitVec 32) :=
  match index with
  | 0x00 => some (bits32 (sext16 (s.fbuf.get 0)))
  | 0x01 => some (bits32 (sext16 (s.fbuf.get 1)))
  | 0x02 => some (bits32 (sext16 (s.fbuf.get 2)))
  | 0x03 => some (bits32 (sext16 (s.fbuf.get 3)))
  | 0x04 => some (bits32 (sext16 (s.fbuf.get 4)))
  | 0x05 => some s.fsum
  | 0x06 => some (BitVec.ofNat 32 s.fcount.val)
  | 0x07 => some (BitVec.ofNat 32 s.fidx.val)
  | 0x08 => some (bits32 (sext16 s.chigh))
  | 0x09 => some (bits32 (sext16 s.clow))
  | 0x0A => some (0#30 ++ (flagBit s.cvalid ++ s.cstate.bit))
  | 0x0B => some (0#27 ++ s.errf)
  | _ => none

end Sys2Proof.Machine
end

