-- ==== Sys2Proof/Machine/Control.lean ====
section
/-! DEFINITION. The control commands RDREG and NOP (43_pipeline_and_control.md R161, R162). -/

namespace Sys2Proof.Machine

/-- RDREG (R161): `v[31:16]` in D1 and `v[15:0]` in D0, or ERR_BADREG; the register read is not changed (R54). -/
def execRdreg (index : Nat) (s : State) : Host.Outcome State Fault Refusal :=
  match value32 index s with
  | some v => .next (respond .ok false s.cstate (Int.ofNat (v.extractLsb' 16 16).toNat) (Int.ofNat (v.extractLsb' 0 16).toNat) s)
  | none => .next (raiseError .badreg s)

/-- NOP (R162): the response alone, with CSTATE. -/
def execNop (s : State) : Host.Outcome State Fault Refusal :=
  .next (respond .ok false s.cstate 0 0 s)

end Sys2Proof.Machine
end

