-- ==== Sys2Proof/Machine/Classifier.lean ====
section
/-! DEFINITION. The Hysteresis Classifier (42_classifier.md R140 to R143): the classification step, CINIT and CEVAL. -/

namespace Sys2Proof.Machine

/-- The state the classification step moves to: "evaluated … using the current state before any mutation", both
comparisons inclusive and signed (R140). -/
def classifyNext (value : Int) (s : State) : CState :=
  match s.cstate with
  | .Safe => if value ≥ sext16 s.chigh then .Unsafe else .Safe
  | .Unsafe => if value ≤ sext16 s.clow then .Safe else .Unsafe

/-- `Classify(v)`: CSTATE alone is written (R140). -/
def classify (value : Int) (s : State) : State := { s with cstate := classifyNext value s }

/-- A successful CINIT's writes: the thresholds, CSTATE to Safe, CVALID to 1 (R142). -/
def startClassifier (high low : Int) (s : State) : State :=
  { s with chigh := bits16 high, clow := bits16 low, cstate := .Safe, cvalid := true }

/-- CINIT (R142): ERR_REINIT is checked before ERR_THRESH (R204); `low = high` is accepted. -/
def execCinit (high low : Int) (s : State) : Host.Outcome State Fault Refusal :=
  if s.cvalid then .next (raiseError .reinit s)
  else if low > high then .next (raiseError .thresh s)
  else .next (respond .ok false .Safe 0 0 (startClassifier high low s))

/-- CEVAL (R143): ERR_UNINIT before any CINIT, else one classification step. -/
def execCeval (value : Int) (s : State) : Host.Outcome State Fault Refusal :=
  if s.cvalid then
    let u := classify value s
    .next (respond .ok false u.cstate 0 0 u)
  else .next (raiseError .uninit s)

end Sys2Proof.Machine
end

