-- ==== Sys2Proof/Machine/Converter.lean ====
section
/-! DEFINITION. The Converter (40_converter.md R100 to R105): a pure function of the raw code, and CONV. -/

namespace Sys2Proof.Machine

/-- `Convert(raw)`: input saturation (R101), the numerator with the half-divisor bias and the integer division (R102), the
output clamp, kept "because the source requires it" (R103). -/
def convert (raw : Nat) : Int :=
  let r := min raw rawMax
  let num := r * tSpan + convBias
  let q := udiv num convDiv
  clamp (tMin + Int.ofNat q) tMin tMax

/-- CONV (R105): the temperature in D0; no register is written but the response. -/
def execConv (raw : Nat) (s : State) : Host.Outcome State Fault Refusal :=
  let t := convert raw
  .next (respond .ok false s.cstate 0 t s)

end Sys2Proof.Machine
end

