-- ==== Sys2Proof/Machine/Filter.lean ====
section
/-! DEFINITION. The Smoothing Filter (41_filter.md R120 to R127): the update, its readiness and smoothed value, the filter
reset, and FUPD and FRST. -/

namespace Sys2Proof.Machine

/-- `(FIDX + 1) mod 5` (R120). -/
def nextIndex (i : Fin 5) : Fin 5 := ⟨(i.val + 1) % filtN, Nat.mod_lt _ (by decide)⟩

/-- The warm-up branch, FCOUNT < 5 before the update: store, add, advance, count (R121). -/
def warmUpUpdate (sample : Int) (s : State) (h : s.fcount.val < filtN) : State :=
  { s with
    fbuf := s.fbuf.set s.fidx (bits16 sample)
    fsum := bits32 (sext32 s.fsum + sample)
    fidx := nextIndex s.fidx
    fcount := ⟨s.fcount.val + 1, Nat.succ_lt_succ h⟩ }

/-- The steady-state branch, FCOUNT = 5 before the update: subtract the oldest resident sample, overwrite its slot, add the
new one, advance; FCOUNT stays 5 (R122). The sum is "updated incrementally (not recomputed by full rescan)" (R24). -/
def steadyUpdate (sample : Int) (s : State) : State :=
  let evicted := bits32 (sext32 s.fsum - sext16 (s.fbuf.get s.fidx))
  { s with
    fbuf := s.fbuf.set s.fidx (bits16 sample)
    fsum := bits32 (sext32 evicted + sample)
    fidx := nextIndex s.fidx }

/-- The state part of `FilterUpdate(s)` (R120): every sample is accepted, with no range check (R125). -/
def filterUpdate (sample : Int) (s : State) : State :=
  if h : s.fcount.val < filtN then warmUpUpdate sample s h else steadyUpdate sample s

/-- `ready`, read after the update: FCOUNT = 5 (R123, C1). -/
def filterReady (s : State) : Bool := s.fcount.val == filtN

/-- The smoothed value `tdiv(FSUM, 5)`, read after the update; none while not ready (R120, R124). -/
def smoothed (s : State) : Option Int := if filterReady s then some (tdiv (sext32 s.fsum) filtN) else none

/-- The smoothed field of a response: the value if ready, else the fill value 0 (R77, D11). -/
def smoothedField (s : State) : Int := (smoothed s).getD 0

/-- The filter reset: buffer, sum, count and index to zero (R127). -/
def filterClear (s : State) : State := { s with fbuf := SampleRing.zero, fsum := 0#32, fcount := 0, fidx := 0 }

/-- FUPD (R126): the classifier is not invoked. -/
def execFupd (sample : Int) (s : State) : Host.Outcome State Fault Refusal :=
  let u := filterUpdate sample s
  .next (respond .ok (filterReady u) u.cstate 0 (smoothedField u) u)

/-- FRST (R127): the filter registers only. -/
def execFrst (s : State) : Host.Outcome State Fault Refusal :=
  let u := filterClear s
  .next (respond .ok false u.cstate 0 0 u)

end Sys2Proof.Machine
end

