-- ==== Sys2Proof/Machine/Pipeline.lean ====
section
/-! DEFINITION. The pipeline command PROC (43_pipeline_and_control.md R160): Converter, Filter, and the Classifier when the
filter is ready. -/

namespace Sys2Proof.Machine

/-- `if ready then Classify(m)` (R160): "the Filter gates how often the Classifier is invoked". -/
def classifyWhenReady (s : State) : State :=
  match smoothed s with
  | some m => classify m s
  | none => s

/-- PROC (R160): all or nothing, ERR_UNINIT is checked before any state change. -/
def execProc (raw : Nat) (s : State) : Host.Outcome State Fault Refusal :=
  if s.cvalid then
    let t := convert raw
    let u := filterUpdate t s
    let v := classifyWhenReady u
    .next (respond .ok (filterReady u) v.cstate (smoothedField u) t v)
  else .next (raiseError .uninit s)

end Sys2Proof.Machine
end

