-- ==== Sys2Proof/Machine/Dispatch.lean ====
section
/-! DEFINITION. One arm per command (30_encoding.md R80). -/

namespace Sys2Proof.Machine

def exec (i : Instr) (s : State) : Host.Outcome State Fault Refusal :=
  match i with
  | .nop => Sys2Proof.Machine.execNop s
  | .conv raw => Sys2Proof.Machine.execConv raw s
  | .fupd sample => Sys2Proof.Machine.execFupd sample s
  | .frst => Sys2Proof.Machine.execFrst s
  | .cinit high low => Sys2Proof.Machine.execCinit high low s
  | .ceval value => Sys2Proof.Machine.execCeval value s
  | .proc raw => Sys2Proof.Machine.execProc raw s
  | .rdreg index => Sys2Proof.Machine.execRdreg index s

end Sys2Proof.Machine
end

