-- ==== Sys2Proof/Machine/Command.lean ====
section
/-! DEFINITION. The block's rule for one accepted command word (30_encoding.md R80): decode, then the command's rule, or
ERR_ILLEGAL. -/

namespace Sys2Proof.Machine

/-- R80: the command the word decodes to runs, any other word raises ERR_ILLEGAL (R74). -/
def runWord (w : CmdWord) (s : State) : Host.Outcome State Fault Refusal :=
  match decodeWord w with
  | .ok i => exec i s
  | .error _ => .next (raiseError .illegal s)

end Sys2Proof.Machine
end

