-- ==== Sys2Proof/Machine/Handshake.lean ====
section
/-! DEFINITION. The ports, the reset and the handshake (70_reset_and_hazards.md R230 to R239): what one rising edge of clk
does. -/

namespace Sys2Proof.Machine

/-- cmd_ready: "1 exactly when PHASE = IDLE and rst = 0" (R230). -/
def cmdReady (rst : Bool) (s : State) : Bool := !rst && (s.phase == .idle)

/-- rsp_valid: "1 exactly when PHASE = RESP and rst = 0" (R230). -/
def rspValid (rst : Bool) (s : State) : Bool := !rst && (s.phase == .resp)

/-- rsp_word: "equals RSPQ while rsp_valid = 1" (R230); no value is claimed otherwise (log entry 11). -/
def rspWord (rst : Bool) (s : State) : Option RspWord := if rspValid rst s then some s.rspq else none

/-- The pins at the coming edge: the host's next listed move, or none (log entry 2). -/
def pinsNow (s : State) : Pins := s.inputs.headD Pins.quiet

/-- The host's list after this edge. -/
def consume (s : State) : State := { s with inputs := s.inputs.tail }

/-- Reset at an edge with rst = 1: every register takes its reset value, whatever the block was doing (R231). The host's
coming moves and the free value's counter are no registers and stay. -/
def blockReset (s : State) : State := { State.reset with inputs := s.inputs, latTick := s.latTick }

/-- Acceptance: the block captures cmd_word and PHASE goes from IDLE to BUSY (R234); `extra` edges pass before the one
that executes, LAT = `extra` + 1 (R235). -/
def accept (word : CmdWord) (extra : Nat) (s : State) : State :=
  { s with phase := .busy word extra, latTick := s.latTick + 1 }

/-- PHASE goes from BUSY to RESP at the edge that executed `word` (R235). -/
def present (word : CmdWord) (s : State) : State := { s with phase := .resp, executed := s.executed ++ [word] }

/-- Execution: the command's rule, its response into RSPQ and PHASE to RESP, "in one indivisible step at one edge" (R235). -/
def execute (word : CmdWord) (s : State) : Host.Outcome State Fault Refusal :=
  match runWord word s with
  | .next t => .next (present word t)
  | .fault r => .fault r
  | .refused r => .refused r

/-- Hand-off: the host takes the response and PHASE goes from RESP to IDLE (R236). -/
def handOff (s : State) : State := { s with phase := .idle, taken := s.taken ++ [s.rspq] }

/-- One rising edge of clk with the pins `p`; a command accepted at it executes after `extra` + 1 edges (R231, R234 to
R236). Where the host makes no move the block stays as it is (R211, R238). -/
def clockEdge (extra : Nat) (p : Pins) (s : State) : Host.Outcome State Fault Refusal :=
  if p.rst then .next (blockReset s)
  else
    match s.phase with
    | .idle => if p.cmdValid then .next (accept p.cmdWord extra s) else .next s
    | .busy word 0 => execute word s
    | .busy word (wait + 1) => .next { s with phase := .busy word wait }
    | .resp => if p.rspReady then .next (handOff s) else .next s

/-- `s` with `word` accepted and due at the next edge, at which the host makes no move (log entry 7). -/
def loadWord (word : CmdWord) (s : State) : State :=
  { s with phase := .busy word 0, inputs := Pins.quiet :: s.inputs }

end Sys2Proof.Machine
end

