-- ==== Sys2Proof/Machine/Step.lean ====
section
/-! DEFINITION. One step: one rising edge of clk (log entry 1). -/

namespace Sys2Proof.Machine

/-- The edge with the host's next listed pins, LAT of a command accepted at it being the free value's next one. -/
def step (s : State) : Host.Outcome State Fault Refusal :=
  clockEdge (Config.latExtra s.latTick) (pinsNow s) (consume s)

/-- `s` with the word `w` (its low `nbits` bits) as the accepted command that the very next step executes (log entry 7). -/
def State.withFetchWord (s : State) (nbits w : Nat) : State := loadWord (BitVec.ofNat 40 (w % 2 ^ nbits)) s

end Sys2Proof.Machine
end

