-- ==== Sys2Proof/Machine/Assembler.lean ====
section
/-! DEFINITION. The assembler syntax (30_encoding.md R78, R79): one command per line, no pseudo-instructions. A line is its
list of characters. What R78 leaves open (blanks around a line, lines with no command) is log entry 13. -/

namespace Sys2Proof.Machine

/-- Why a line is no command: "an assembly error, not a command" (R78). -/
inductive AsmError where
  /-- The first word is no mnemonic of R73 and not `.word`. -/
  | unknownMnemonic
  /-- Another number of operands than R78 gives the mnemonic. -/
  | operandCount
  /-- An operand that is no decimal integer and no `0x` number, or a `.word` without ten hexadecimal digits. -/
  | malformedOperand
  /-- An operand out of its range (R78). -/
  | operandOutOfRange
  deriving DecidableEq, Repr

/-- An operand as it is written: a decimal integer, or a `0x` number, which is the 16-bit pattern itself (R78). -/
inductive AsmOperand where
  | decimal (i : Int)
  | pattern (v : Nat)
  deriving DecidableEq, Repr

/-- The value of a digit in base `base` (10 or 16), hexadecimal letters in either case. -/
def digitValue (base : Nat) (c : Char) : Option Nat :=
  let n := c.toNat
  let v := if 48 ≤ n ∧ n ≤ 57 then n - 48 else if 97 ≤ n ∧ n ≤ 102 then n - 87 else if 65 ≤ n ∧ n ≤ 70 then n - 55 else base
  if v < base then some v else none

/-- The number a non-empty run of digits stands for, most significant digit first; `acc` is what stands before it. -/
def digitsValue (base : Nat) : Nat → List Char → Option Nat
  | _, [] => none
  | acc, [c] => (digitValue base c).map (acc * base + ·)
  | acc, c :: rest => (digitValue base c).bind fun v => digitsValue base (acc * base + v) rest

/-- "An operand is a decimal integer with an optional leading `-`, or a `0x` hexadecimal number" (R78). -/
def parseOperand : List Char → Option AsmOperand
  | '0' :: 'x' :: rest => (digitsValue 16 0 rest).map .pattern
  | '-' :: rest => (digitsValue 10 0 rest).map fun n => .decimal (-Int.ofNat n)
  | text => (digitsValue 10 0 text).map fun n => .decimal (Int.ofNat n)

/-- An unsigned operand; `none` where no 16-bit field holds it. -/
def AsmOperand.unsigned : AsmOperand → Option Nat
  | .decimal i => if 0 ≤ i then some i.toNat else none
  | .pattern v => some v

/-- A signed operand: a pattern is read as a 16-bit two's-complement number, "so `FUPD 0xFFFF` is `FUPD -1`" (R78). -/
def AsmOperand.signed : AsmOperand → Option Int
  | .decimal i => some i
  | .pattern v => if v ≤ 0xFFFF then some (sext16 (BitVec.ofNat 16 v)) else none

/-- The operands, separated by a comma and a space (R78). -/
def splitOperands : List Char → List (List Char)
  | [] => [[]]
  | ',' :: ' ' :: rest => [] :: splitOperands rest
  | c :: rest =>
    match splitOperands rest with
    | [] => [[c]]
    | first :: others => (c :: first) :: others

/-- The operands R78 gives a mnemonic. -/
inductive AsmShape where
  | bare (i : Instr)
  | oneUnsigned (make : Nat → Instr)
  | oneSigned (make : Int → Instr)
  | twoSigned (make : Int → Int → Instr)

/-- The mnemonics of R73, given in capitals. -/
def asmShape (name : List Char) : Option AsmShape :=
  if name = ['N', 'O', 'P'] then some (.bare .nop)
  else if name = ['C', 'O', 'N', 'V'] then some (.oneUnsigned .conv)
  else if name = ['F', 'U', 'P', 'D'] then some (.oneSigned .fupd)
  else if name = ['F', 'R', 'S', 'T'] then some (.bare .frst)
  else if name = ['C', 'I', 'N', 'I', 'T'] then some (.twoSigned .cinit)
  else if name = ['C', 'E', 'V', 'A', 'L'] then some (.oneSigned .ceval)
  else if name = ['P', 'R', 'O', 'C'] then some (.oneUnsigned .proc)
  else if name = ['R', 'D', 'R', 'E', 'G'] then some (.oneUnsigned .rdreg)
  else none

/-- The instruction, if its operands are in range. -/
def inRange (i : Instr) : Except AsmError Instr := if i.wellFormed then .ok i else .error .operandOutOfRange

/-- The instruction a shape makes of its operands. -/
def makeInstr : AsmShape → List AsmOperand → Except AsmError Instr
  | .bare i, [] => inRange i
  | .oneUnsigned make, [x] =>
    match x.unsigned with
    | some a => inRange (make a)
    | none => .error .operandOutOfRange
  | .oneSigned make, [x] =>
    match x.signed with
    | some a => inRange (make a)
    | none => .error .operandOutOfRange
  | .twoSigned make, [x, y] =>
    match x.signed, y.signed with
    | some a, some b => inRange (make a b)
    | _, _ => .error .operandOutOfRange
  | _, _ => .error .operandCount

/-- `.word 0xHHHHHHHHHH`: a raw 40-bit command word, ten hexadecimal digits (R78). -/
def rawWord : List Char → Except AsmError CmdWord
  | '0' :: 'x' :: digits =>
    match digitsValue 16 0 digits with
    | some n => if digits.length = 10 then .ok (BitVec.ofNat 40 n) else .error .malformedOperand
    | none => .error .malformedOperand
  | _ => .error .malformedOperand

/-- The operands of a line, each read. -/
def readOperands : List (List Char) → Option (List AsmOperand)
  | [] => some []
  | text :: rest =>
    match parseOperand text, readOperands rest with
    | some x, some xs => some (x :: xs)
    | _, _ => none

/-- The text of a line without its comment ("comments start with `;`") and without blanks around it. -/
def stripLine (line : List Char) : List Char :=
  let body := line.takeWhile (· ≠ ';')
  ((body.dropWhile (· = ' ')).reverse.dropWhile (· = ' ')).reverse

/-- The operands' text: none where the line ends at the mnemonic, else what follows "the mnemonic, a space" (R78). -/
def operandTexts : List Char → List (List Char)
  | [] => []
  | _ :: rest => splitOperands rest

/-- The first word of a stripped line. -/
def lineName (text : List Char) : List Char := text.takeWhile (· ≠ ' ')

/-- A stripped line after its first word, from the space on. -/
def lineRest (text : List Char) : List Char := text.dropWhile (· ≠ ' ')

/-- The instruction a line's mnemonic and operands make. -/
def lineInstr (text : List Char) : Except AsmError Instr :=
  match asmShape ((lineName text).map Char.toUpper) with
  | none => .error .unknownMnemonic
  | some shape =>
    match readOperands (operandTexts (lineRest text)) with
    | none => .error .malformedOperand
    | some operands => makeInstr shape operands

/-- One line: the command word it assembles to, or none where it holds no command. "Mnemonics are case-insensitive"
(R78); each assembles to exactly one word (R79). -/
def assembleLine (line : List Char) : Except AsmError (Option CmdWord) :=
  let text := stripLine line
  if text = [] then .ok none
  else if lineName text = ['.', 'w', 'o', 'r', 'd'] then (rawWord ((lineRest text).drop 1)).map some
  else (lineInstr text).map fun i => some (encode i)

/-- A program: one command per line, in order; the first line that is no command is the error. -/
def assemble : List (List Char) → Except AsmError (List CmdWord)
  | [] => .ok []
  | line :: rest =>
    match assembleLine line, assemble rest with
    | .ok (some w), .ok ws => .ok (w :: ws)
    | .ok none, .ok ws => .ok ws
    | .error e, _ => .error e
    | .ok _, .error e => .error e

/-! ## Writing a command as a line -/

/-- The digits of a number below `base ^ (fuel + 1)`, most significant first. -/
def digitsText (base : Nat) : Nat → Nat → List Char
  | 0, n => [Nat.digitChar n]
  | fuel + 1, n => if n < base then [Nat.digitChar n] else digitsText base fuel (n / base) ++ [Nat.digitChar (n % base)]

/-- A number in base `base`, without leading zeros. -/
def natText (base n : Nat) : List Char := digitsText base n n

/-- The two ways R78 gives to write an operand. -/
inductive AsmRadix where
  | decimal
  | hexadecimal
  deriving DecidableEq, Repr

/-- An unsigned operand as text (R78). -/
def unsignedText (radix : AsmRadix) (n : Nat) : List Char :=
  match radix with
  | .decimal => natText 10 n
  | .hexadecimal => '0' :: 'x' :: natText 16 n

/-- A signed operand as text: decimal with a leading `-`, or the 16-bit pattern itself (R78). -/
def signedText (radix : AsmRadix) (i : Int) : List Char :=
  match radix with
  | .decimal => if i < 0 then '-' :: natText 10 i.natAbs else natText 10 i.natAbs
  | .hexadecimal => '0' :: 'x' :: natText 16 (fieldOfSigned i).toNat

/-- The mnemonic of a command (R73). -/
def mnemonicText : Instr → List Char
  | .nop => ['N', 'O', 'P']
  | .conv _ => ['C', 'O', 'N', 'V']
  | .fupd _ => ['F', 'U', 'P', 'D']
  | .frst => ['F', 'R', 'S', 'T']
  | .cinit _ _ => ['C', 'I', 'N', 'I', 'T']
  | .ceval _ => ['C', 'E', 'V', 'A', 'L']
  | .proc _ => ['P', 'R', 'O', 'C']
  | .rdreg _ => ['R', 'D', 'R', 'E', 'G']

/-- The operands of a command as text, after the mnemonic: a space, then the operands separated by ", " (R78). -/
def operandsText (radix : AsmRadix) : Instr → List Char
  | .nop => []
  | .conv raw => ' ' :: unsignedText radix raw
  | .fupd sample => ' ' :: signedText radix sample
  | .frst => []
  | .cinit high low => ' ' :: (signedText radix high ++ ',' :: ' ' :: signedText radix low)
  | .ceval value => ' ' :: signedText radix value
  | .proc raw => ' ' :: unsignedText radix raw
  | .rdreg index => ' ' :: unsignedText radix index

/-- The line of a command whose mnemonic is written `name` (in any case, R78). -/
def asmLine (name : List Char) (radix : AsmRadix) (i : Instr) : List Char := name ++ operandsText radix i

end Sys2Proof.Machine
end

