-- ==== Sys2Proof/Machine/Channels.lean ====
section
/-! DEFINITION. Several sensor channels (00_scope.md R6, 60_exceptions.md R208): one block instance each, sharing nothing.
Between instances there is no order (20_memory.md R57), so which one's edge comes next is an argument (log entry 17). -/

namespace Sys2Proof.Machine

/-- A system of block instances, one per channel. -/
abbrev Channels := List State

/-- One rising edge of channel `k`'s instance. Naming a channel that does not exist moves nothing (log entry 17).
DESIGN CHOICE, unsafe for a claim that compares the timing of two channels: R57, R208 and R240 relate no instance's LAT to another's,
but every instance reads the one function `Config.latExtra` at its own `latTick`, so two channels with equal counts take the same
LAT (log entries 3 and 17). -/
def stepChannel : Nat → Channels → Host.Outcome Channels Fault Refusal
  | _, [] => .next []
  | 0, s :: rest =>
    match step s with
    | .next t => .next (t :: rest)
    | .fault r => .fault r
    | .refused r => .refused r
  | k + 1, s :: rest =>
    match stepChannel k rest with
    | .next rest' => .next (s :: rest')
    | .fault r => .fault r
    | .refused r => .refused r

end Sys2Proof.Machine
end

