-- ==== Sys2Proof/Machine/Run.lean ====
section
/-! DEFINITION. The untimed reading of the block (20_memory.md R56, 70_reset_and_hazards.md R237, R241): the fold of the
command rules over the host's command sequence, and the pins of a host that carries a sequence through the handshake. -/

namespace Sys2Proof.Machine

/-- One command from acceptance to hand-off, untimed: its rule, and its response taken by the host (R237). -/
def transact (w : CmdWord) (s : State) : Host.Outcome State Fault Refusal :=
  match runWord w s with
  | .next t => .next { t with executed := t.executed ++ [w], taken := t.taken ++ [t.rspq] }
  | .fault r => .fault r
  | .refused r => .refused r

/-- "The state after a sequence of commands is the fold of the command rules over the sequence" (R56). -/
def transactAll : List CmdWord → State → Host.Outcome State Fault Refusal
  | [], s => .next s
  | w :: ws, s =>
    match transact w s with
    | .next t => transactAll ws t
    | .fault r => .fault r
    | .refused r => .refused r

/-- An edge at which the host offers `w` (R234). -/
def Pins.offer (w : CmdWord) : Pins := { Pins.quiet with cmdValid := true, cmdWord := w }

/-- An edge at which the host is ready to take a response (R236). -/
def Pins.take : Pins := { Pins.quiet with rspReady := true }

/-- One command of a patient host: it lets `before` edges pass in which it makes no move, offers `word`, and leaves the
response presented for `hold` edges before it takes it. -/
structure HostTurn where
  word : CmdWord
  before : Nat
  hold : Nat
  deriving DecidableEq, Repr

/-- The pins of a patient host that carries a command sequence through the handshake (R234 to R237): for each command it waits,
offers, makes no move for the LAT edges after the acceptance, leaves the response presented, and takes it. `tick` is the
number of commands accepted before, at which LAT is read. -/
def hostPins (tick : Nat) : List HostTurn → List Pins
  | [] => []
  | h :: hs =>
    List.replicate h.before Pins.quiet ++ Pins.offer h.word ::
      (List.replicate (Config.lat tick) Pins.quiet ++ (List.replicate h.hold Pins.quiet ++ Pins.take :: hostPins (tick + 1) hs))

/-- The end of a run of `commands` (R241): all of them have been accepted, all their responses taken, and PHASE = IDLE. In
IDLE the commands accepted since reset are the executed ones; `executed` and `taken` are the host's records (log entry 6). What
the host drives afterwards does not matter. -/
def runEnded (commands : List CmdWord) (s : State) : Bool :=
  s.executed == commands && s.taken.length == commands.length && s.phase == .idle

/-- The registers and RSPQ alone: `s` with everything the host side and the handshake hold set as after reset. Two states
with the same registers have the same `registersOf`. -/
def registersOf (s : State) : State := { s with phase := .idle, inputs := [], executed := [], taken := [], latTick := 0 }

/-- What a run that has ended shows: "the list of the n response words and the final register state" (R241). -/
def runObservation (s : State) : List RspWord × State := (s.taken, registersOf s)

end Sys2Proof.Machine
end

