-- ==== Sys2Proof/Safety.lean ====
section
/-! DEFINITION. What a good state is, in the terms the claims use: the filter's, the classifier's and the response's
invariants (10_state.md R23, R26, R27, R31; 30_encoding.md R76), the resident samples in order of age (41_filter.md R129),
and the history the handshake keeps (20_memory.md R56, 70_reset_and_hazards.md R237). -/

namespace Sys2Proof.Machine

/-- FBUF[0..4] as a list. -/
def SampleRing.toList (b : SampleRing) : List (BitVec 16) := [b.slot0, b.slot1, b.slot2, b.slot3, b.slot4]

/-- FBUF[0] + FBUF[1] + FBUF[2] + FBUF[3] + FBUF[4], the exact integer (R27). -/
def SampleRing.sum (b : SampleRing) : Int :=
  sext16 b.slot0 + sext16 b.slot1 + sext16 b.slot2 + sext16 b.slot3 + sext16 b.slot4

/-- The samples resident in the filter, oldest first: the first FCOUNT slots while warming up, then from slot FIDX, "the slot
of the chronologically oldest resident sample", round (R26, R129). -/
def residentSamples (s : State) : List (BitVec 16) :=
  if s.fcount.val < filtN then s.fbuf.toList.take s.fcount.val
  else s.fbuf.toList.drop s.fidx.val ++ s.fbuf.toList.take s.fidx.val

/-- The filter invariant: the sum is the sum of the slots (R27), and while FCOUNT < 5, FIDX = FCOUNT (R26) and the slots not
yet written since the filter reset hold 0 (R23). -/
structure FilterInv (s : State) : Prop where
  sum_eq : sext32 s.fsum = s.fbuf.sum
  index_eq : s.fcount.val < filtN → s.fidx.val = s.fcount.val
  unwritten_zero : s.fcount.val < filtN → ∀ i : Fin 5, s.fcount.val ≤ i.val → s.fbuf.get i = 0#16

/-- The classifier invariant: CLOW ≤ CHIGH once CVALID = 1 (R31); before the first CINIT nothing has written the thresholds
or moved CSTATE (R28, R29). -/
structure ClassifierInv (s : State) : Prop where
  ordered : s.cvalid = true → sext16 s.clow ≤ sext16 s.chigh
  untouched : s.cvalid = false → s.chigh = 0#16 ∧ s.clow = 0#16 ∧ s.cstate = .Safe

/-- The response invariant: RSV is 0 (R76), STATUS 6..15 is never produced (R201), an error response carries no READY and no
data (R203), and a presented response's STATE is CSTATE (R34). -/
structure ResponseInv (s : State) : Prop where
  rsv_zero : rspRsv s.rspq = 0#2
  status_known : (rspStatus s.rspq).toNat ≤ 5
  error_bare : rspStatus s.rspq ≠ 0#4 → rspReadyFlag s.rspq = 0#1 ∧ rspD1 s.rspq = 0#16 ∧ rspD0 s.rspq = 0#16
  state_shown : s.phase = .resp → rspStateFlag s.rspq = s.cstate.bit

/-- The three together. -/
structure GoodState (s : State) : Prop where
  filter : FilterInv s
  classifier : ClassifierInv s
  response : ResponseInv s

/-- Every sample in the filter lies in the temperature range [-400, 1250] (R125, R160: so under PROC alone). -/
def SamplesInRange (s : State) : Prop := ∀ i : Fin 5, tMin ≤ sext16 (s.fbuf.get i) ∧ sext16 (s.fbuf.get i) ≤ tMax

/-- The responses of the commands executed since the last reset: those taken, and the one presented now if there is one. -/
def answered (s : State) : List RspWord := if s.phase = .resp then s.taken ++ [s.rspq] else s.taken

/-- The history: the registers and RSPQ are what the fold of the command rules over the executed commands leaves (R56), and
the responses are that fold's, one for each command, in order (R237). -/
def FollowsHistory (s : State) : Prop :=
  ∃ u, transactAll s.executed State.reset = .next u ∧ registersOf s = registersOf u ∧ answered s = u.taken

end Sys2Proof.Machine
end

