-- ==== Sys2Proof/Certificates/Slice0/Obligations.lean ====
section
/-! DEFINITION. The statements for the provers, from the numbered rules of spec/. A statement that rests on a reading the
spec marks as its own derivation or as general knowledge says so. -/

open Sys2Proof Sys2Proof.Machine

/-! ## Encoding -/

/-- Decoding an encoded well-formed command gives it back, from the word and from its five bytes, with every operand at
every value its field admits (R70, R72, R73, R79, R51). -/
def Obligations.DecodeOfEncodeIsTheCommand : Prop :=
  ∀ i : Instr, i.wellFormed = true →
    decodeWord (encode i) = .ok i ∧ decodeBytes (bytesOfWord (encode i)) = .ok i

/-- A decoded command is well formed, and encoding it gives the word back with its ignored fields as 0 (R75, R79). -/
def Obligations.ReencodingClearsOnlyIgnoredFields : Prop :=
  ∀ (w : CmdWord) (i : Instr), decodeWord w = .ok i →
    i.wellFormed = true ∧ encode i = w &&& usedBits (opField w)

/-- R75: B of every command but CINIT, and A and B of FRST and NOP, are not checked and have no effect; so every word with
OP 0x00..0x07 is a command. -/
def Obligations.IgnoredFieldsHaveNoEffect : Prop :=
  ∀ (op : BitVec 8) (a a' b b' : BitVec 16) (s : State),
    (op ≠ 0x04#8 → decodeWord (cmdWord op b a) = decodeWord (cmdWord op b' a) ∧
      runWord (cmdWord op b a) s = runWord (cmdWord op b' a) s) ∧
    (op = 0x00#8 ∨ op = 0x03#8 → decodeWord (cmdWord op b a) = decodeWord (cmdWord op b' a') ∧
      runWord (cmdWord op b a) s = runWord (cmdWord op b' a') s) ∧
    (op.toNat ≤ 0x07 → ∃ i, decodeWord (cmdWord op b a) = .ok i)

/-- R74: exactly the words with OP in 0x08..0xFF are illegal; such a word writes no state but ERRF bit 0 and responds with
status 1. -/
def Obligations.IllegalWordsOnlySetErrfBitZero : Prop :=
  ∀ (w : CmdWord) (s : State),
    ((∃ i, decodeWord w = .ok i) ↔ (opField w).toNat < 0x08) ∧
    (0x08 ≤ (opField w).toNat →
      decodeWord w = .error (.illegalOp (opField w)) ∧
      ∃ t, runWord w s = .next t ∧ t = { s with errf := s.errf ||| 0b00001#5, rspq := t.rspq } ∧
        rspStatus t.rspq = 1#4 ∧ rspReadyFlag t.rspq = 0#1 ∧ rspStateFlag t.rspq = s.cstate.bit ∧
        rspRsv t.rspq = 0#2 ∧ rspD1 t.rspq = 0#16 ∧ rspD0 t.rspq = 0#16)

/-- Words written out from the opcode map decode to the command they stand for (R73, R79). -/
def Obligations.SampleWordsDecodeAsTheMapSays : Prop :=
  decodeWord 0x0012345678#40 = .ok .nop ∧ decodeWord 0x0100000800#40 = .ok (.conv 2048) ∧
  decodeWord 0x020000FFFE#40 = .ok (.fupd (-2)) ∧ decodeWord 0x0300010001#40 = .ok .frst ∧
  decodeWord 0x0403B603E8#40 = .ok (.cinit 1000 950) ∧ decodeWord 0x0500008000#40 = .ok (.ceval (-32768)) ∧
  decodeWord 0x0600000DAC#40 = .ok (.proc 3500) ∧ decodeWord 0x070000000B#40 = .ok (.rdreg 11) ∧
  decodeWord 0x2A56781234#40 = .error (.illegalOp 0x2A#8)

/-- Byte `k` of a word on a byte-wide transport is bits [8k+7 : 8k], byte 0 first, and the five bytes decode as the word
(R51). -/
def Obligations.TransportBytesAreLittleEndian : Prop :=
  ∀ w : CmdWord, (bytesOfWord w).length = 5 ∧
    (∀ k j : Nat, k < 5 → j < 8 → ∃ b, (bytesOfWord w)[k]? = some b ∧ b.getLsbD j = w.getLsbD (8 * k + j)) ∧
    decodeBytes (bytesOfWord w) = decodeWord w

/-- The word `respond` forms carries each of its arguments in the field R76 gives it. -/
def Obligations.ResponseWordCarriesItsFields : Prop :=
  ∀ (status : Status) (ready : Bool) (state : CState) (d1 d0 : Int),
    let w := responseWord status ready state d1 d0
    (rspStatus w).toNat = status.code ∧ (rspReadyFlag w = 1#1 ↔ ready = true) ∧
    (rspStateFlag w = 1#1 ↔ state = .Unsafe) ∧ rspRsv w = 0#2 ∧
    rspD1 w = BitVec.ofInt 16 d1 ∧ rspD0 w = BitVec.ofInt 16 d0

/-! ## Converter -/

/-- R105: OP 0x01 is CONV with raw = `zext_16(A)`, B ignored. It completes in every state, before any CINIT too, writes no
register but the response, cannot fail, and gives the temperature in D0; the rule's corner cases are the last clause. -/
def Obligations.ConvRespondsWithTheTemperature : Prop :=
  (∀ a b : BitVec 16, decodeWord (cmdWord 0x01#8 b a) = .ok (.conv a.toNat)) ∧
  (∀ (raw : Nat) (s : State), ∃ t, exec (.conv raw) s = .next t ∧ t = { s with rspq := t.rspq } ∧
    rspStatus t.rspq = 0#4 ∧ rspReadyFlag t.rspq = 0#1 ∧ rspStateFlag t.rspq = s.cstate.bit ∧
    rspD1 t.rspq = 0#16 ∧ (rspD0 t.rspq).toInt = convert raw) ∧
  (convert 0 = -400 ∧ convert 1 = -400 ∧ convert 2 = -399 ∧ convert 2048 = 425 ∧ convert 4094 = 1250 ∧ convert 4095 = 1250 ∧
    convert 4096 = 1250 ∧ convert 65535 = 1250)

/-- R100, R101: the full function, for every raw code; codes above 4095 saturate to `Convert(4095)` = 1250, and no error or
status is raised for them. -/
def Obligations.ConvertIsTheFormulaWithSaturation : Prop :=
  (∀ raw : Nat, convert raw = max (-400) (min 1250 (-400 + (((min raw 4095 * 1650 + 2047) / 4095 : Nat) : Int)))) ∧
  (∀ raw : Nat, 4095 < raw → convert raw = convert 4095 ∧ convert raw = 1250 ∧
    ∀ s : State, ∃ t, exec (.conv raw) s = .next t ∧ rspStatus t.rspq = 0#4 ∧ t.errf = s.errf)

/-- The properties of R106: endpoints and midpoint, monotone, saturating; and the two facts R106 marks as derived:
consecutive codes differ by at most 1, and every temperature of the range is the image of two or three codes (two
neighbours share it, no four do). -/
def Obligations.ConvertIsMonotoneInUnitSteps : Prop :=
  convert 0 = -400 ∧ convert 4095 = 1250 ∧ convert 2048 = 425 ∧
  (∀ a b : Nat, a < b → b ≤ 4095 → convert a ≤ convert b) ∧
  (∀ a : Nat, 4095 < a → convert a = convert 4095) ∧
  (∀ a : Nat, a + 1 ≤ 4095 → convert (a + 1) ≤ convert a + 1) ∧
  (∀ t : Int, -400 ≤ t → t ≤ 1250 → ∃ a : Nat, a + 1 ≤ 4095 ∧ convert a = t ∧ convert (a + 1) = t) ∧
  (∀ a : Nat, a + 3 ≤ 4095 → convert a ≠ convert (a + 3))

/-- What the spec derives in R102 and R103: the quotient is the nearest integer to `raw × 1650 / 4095`, there is no tie, it
rounds up exactly when `(raw × 1650) mod 4095 ≥ 2048`, and the output clamp never changes a value. -/
def Obligations.ConvertRoundsToTheNearest : Prop :=
  ∀ raw : Nat, raw ≤ 4095 →
    2 * |4095 * (convert raw + 400) - 1650 * (raw : Int)| < 4095 ∧
    convert raw + 400 = ((raw * 1650 / 4095 + if 2048 ≤ raw * 1650 % 4095 then 1 else 0 : Nat) : Int) ∧
    (-400 ≤ convert raw ∧ convert raw ≤ 1250)

/-! ## Smoothing Filter -/

/-- R121, R123, R126: FUPD during warm-up completes and stores, adds, advances and counts; it is ready exactly when FCOUNT
becomes 5, and then D0 is `tdiv(FSUM, 5)`. Nothing else changes. -/
def Obligations.FupdWarmUpStoresAddsAdvancesCounts : Prop :=
  ∀ (x : Int) (s : State), s.fcount.val < 5 →
    ∃ t, exec (.fupd x) s = .next t ∧
      t = { s with fbuf := t.fbuf, fsum := t.fsum, fidx := t.fidx, fcount := t.fcount, rspq := t.rspq } ∧
      (∀ i : Fin 5, t.fbuf.get i = if i = s.fidx then BitVec.ofInt 16 x else s.fbuf.get i) ∧
      t.fsum = s.fsum + BitVec.ofInt 32 x ∧ t.fidx.val = (s.fidx.val + 1) % 5 ∧ t.fcount.val = s.fcount.val + 1 ∧
      rspStatus t.rspq = 0#4 ∧ rspStateFlag t.rspq = s.cstate.bit ∧ rspD1 t.rspq = 0#16 ∧
      (s.fcount.val < 4 → rspReadyFlag t.rspq = 0#1 ∧ rspD0 t.rspq = 0#16) ∧
      (s.fcount.val = 4 → rspReadyFlag t.rspq = 1#1 ∧ rspD0 t.rspq = BitVec.ofInt 16 (tdiv t.fsum.toInt 5))

/-- R122, R123, R126: FUPD in steady state completes, takes the sample at the write position out of the sum, overwrites its
slot, adds the new sample and advances; FCOUNT stays 5, and it is ready. Nothing else changes. -/
def Obligations.FupdSteadyReplacesTheOldestSample : Prop :=
  ∀ (x : Int) (s : State), s.fcount.val = 5 →
    ∃ t, exec (.fupd x) s = .next t ∧
      t = { s with fbuf := t.fbuf, fsum := t.fsum, fidx := t.fidx, rspq := t.rspq } ∧
      (∀ i : Fin 5, t.fbuf.get i = if i = s.fidx then BitVec.ofInt 16 x else s.fbuf.get i) ∧
      t.fsum = s.fsum - (s.fbuf.get s.fidx).signExtend 32 + BitVec.ofInt 32 x ∧ t.fidx.val = (s.fidx.val + 1) % 5 ∧
      rspStatus t.rspq = 0#4 ∧ rspStateFlag t.rspq = s.cstate.bit ∧ rspD1 t.rspq = 0#16 ∧
      rspReadyFlag t.rspq = 1#1 ∧ rspD0 t.rspq = BitVec.ofInt 16 (tdiv t.fsum.toInt 5)

/-- R127: FRST completes in every state and clears the filter registers only. -/
def Obligations.FrstClearsTheFilterOnly : Prop :=
  ∀ s : State, ∃ t, exec .frst s = .next t ∧
    t = { s with fbuf := t.fbuf, fsum := 0#32, fidx := 0, fcount := 0, rspq := t.rspq } ∧
    (∀ i : Fin 5, t.fbuf.get i = 0#16) ∧
    rspStatus t.rspq = 0#4 ∧ rspReadyFlag t.rspq = 0#1 ∧ rspStateFlag t.rspq = s.cstate.bit ∧
    rspD1 t.rspq = 0#16 ∧ rspD0 t.rspq = 0#16

/-- The smoothing division rounds toward zero: `tdiv` is the truncating division of the integers, its remainder is less than
the divisor and has the dividend's sign. The direction is general knowledge by the spec's own mark (R9, I18: log entry 9). -/
def Obligations.SmoothingDivisionTruncatesTowardZero : Prop :=
  ∀ a : Int, tdiv a 5 = Int.tdiv a 5 ∧
    (0 ≤ a → 0 ≤ a - 5 * tdiv a 5 ∧ a - 5 * tdiv a 5 < 5) ∧
    (a ≤ 0 → a - 5 * tdiv a 5 ≤ 0 ∧ -5 < a - 5 * tdiv a 5)

/-- The spec's reset property, which it derives in R130: after FRST or a block reset the filter is a brand-new one, and the
next FUPD reports not ready and leaves FSUM = the sample. -/
def Obligations.FirstUpdateAfterFilterReset : Prop :=
  ∀ (x : Int) (s u : State), -32768 ≤ x → x ≤ 32767 → (exec .frst s = .next u ∨ u = blockReset s) →
    (u.fbuf = State.reset.fbuf ∧ u.fsum = State.reset.fsum ∧ u.fcount = State.reset.fcount ∧ u.fidx = State.reset.fidx) ∧
    ∃ t, exec (.fupd x) u = .next t ∧ rspReadyFlag t.rspq = 0#1 ∧ rspD0 t.rspq = 0#16 ∧ t.fsum.toInt = x ∧ t.fcount.val = 1

/-- The spec's eviction order, which it derives in R129: the resident samples are the five most recent ones, oldest evicted
first; FSUM is their sum, and a ready response is that sum over 5, truncated. -/
def Obligations.FilterKeepsTheFiveMostRecentSamples : Prop :=
  ∀ (x : Int) (s : State), FilterInv s → -32768 ≤ x → x ≤ 32767 →
    ∃ t, exec (.fupd x) s = .next t ∧
      (let all := residentSamples s ++ [BitVec.ofInt 16 x]
       residentSamples t = all.drop (all.length - 5)) ∧
      t.fsum.toInt = ((residentSamples t).map BitVec.toInt).sum ∧
      (rspReadyFlag t.rspq = 1#1 ↔ (residentSamples t).length = 5) ∧
      (rspReadyFlag t.rspq = 1#1 → (rspD0 t.rspq).toInt = Int.tdiv ((residentSamples t).map BitVec.toInt).sum 5)

/-- The bounds the spec derives in R128: FSUM, the intermediate of the steady-state update and the smoothed value fit their
registers, and tighter bounds hold when every sample is a temperature. -/
def Obligations.FilterArithmeticNeverOverflows : Prop :=
  ∀ s : State, FilterInv s →
    (-163840 ≤ s.fsum.toInt ∧ s.fsum.toInt ≤ 163835) ∧
    (∀ i : Fin 5, -163840 ≤ s.fsum.toInt - (s.fbuf.get i).toInt ∧ s.fsum.toInt - (s.fbuf.get i).toInt ≤ 163835) ∧
    (-32768 ≤ tdiv s.fsum.toInt 5 ∧ tdiv s.fsum.toInt 5 ≤ 32767) ∧
    (SamplesInRange s → (-2000 ≤ s.fsum.toInt ∧ s.fsum.toInt ≤ 6250) ∧
      -400 ≤ tdiv s.fsum.toInt 5 ∧ tdiv s.fsum.toInt 5 ≤ 1250)

/-! ## Hysteresis Classifier -/

/-- R142: the first CINIT with low ≤ high completes, sets the thresholds, Safe and CVALID, and responds all zero; equal
thresholds are accepted. -/
def Obligations.FirstCinitStartsTheClassifier : Prop :=
  ∀ (high low : Int) (s : State), (Instr.cinit high low).wellFormed = true → s.cvalid = false → low ≤ high →
    ∃ t, exec (.cinit high low) s = .next t ∧
      t = { s with chigh := t.chigh, clow := t.clow, cstate := .Safe, cvalid := true, rspq := 0x0000000000#40 } ∧
      t.chigh.toInt = high ∧ t.clow.toInt = low

/-- R142, R204: a CINIT after a successful one raises ERR_REINIT whatever its thresholds, and one with low > high before
that ERR_THRESH; each sets its own ERRF bit and changes nothing else. -/
def Obligations.CinitRefusalsInPriorityOrder : Prop :=
  ∀ (high low : Int) (s : State),
    (s.cvalid = true → ∃ t, exec (.cinit high low) s = .next t ∧
      t = { s with errf := s.errf ||| 0b10000#5, rspq := t.rspq } ∧ rspStatus t.rspq = 5#4 ∧
      rspReadyFlag t.rspq = 0#1 ∧ rspStateFlag t.rspq = s.cstate.bit ∧ rspD1 t.rspq = 0#16 ∧ rspD0 t.rspq = 0#16) ∧
    (s.cvalid = false → low > high → ∃ t, exec (.cinit high low) s = .next t ∧
      t = { s with errf := s.errf ||| 0b00010#5, rspq := t.rspq } ∧ rspStatus t.rspq = 2#4 ∧
      rspReadyFlag t.rspq = 0#1 ∧ rspStateFlag t.rspq = s.cstate.bit ∧ rspD1 t.rspq = 0#16 ∧ rspD0 t.rspq = 0#16)

/-- R140, R143: CEVAL with CVALID = 1 completes; CSTATE moves to Unsafe at value ≥ CHIGH from Safe, to Safe at value ≤ CLOW
from Unsafe, and stays otherwise; nothing else changes, and STATE is the state after the step. -/
def Obligations.CevalMovesStateAtInclusiveThresholds : Prop :=
  ∀ (v : Int) (s : State), s.cvalid = true →
    ∃ t, exec (.ceval v) s = .next t ∧ t = { s with cstate := t.cstate, rspq := t.rspq } ∧
      (s.cstate = .Safe → s.chigh.toInt ≤ v → t.cstate = .Unsafe) ∧
      (s.cstate = .Safe → v < s.chigh.toInt → t.cstate = .Safe) ∧
      (s.cstate = .Unsafe → v ≤ s.clow.toInt → t.cstate = .Safe) ∧
      (s.cstate = .Unsafe → s.clow.toInt < v → t.cstate = .Unsafe) ∧
      rspStatus t.rspq = 0#4 ∧ rspReadyFlag t.rspq = 0#1 ∧ rspStateFlag t.rspq = t.cstate.bit ∧
      rspD1 t.rspq = 0#16 ∧ rspD0 t.rspq = 0#16

/-- CEVAL and PROC while CVALID = 0 raise ERR_UNINIT and change nothing but ERRF bit 2 (R30, R143, R160, R201). -/
def Obligations.ClassifierUseBeforeCinitIsRefused : Prop :=
  ∀ (i : Instr) (s : State), s.cvalid = false → ((∃ v, i = .ceval v) ∨ (∃ raw, i = .proc raw)) →
    ∃ t, exec i s = .next t ∧ t = { s with errf := s.errf ||| 0b00100#5, rspq := t.rspq } ∧
      rspStatus t.rspq = 3#4 ∧ rspReadyFlag t.rspq = 0#1 ∧ rspStateFlag t.rspq = s.cstate.bit ∧
      rspD1 t.rspq = 0#16 ∧ rspD0 t.rspq = 0#16

/-- The dead zone, which the spec derives in R141: from either state, any number of CEVALs strictly between the thresholds
leaves CSTATE and the thresholds unchanged. -/
def Obligations.DeadZoneNeverMovesTheState : Prop :=
  ∀ (values : List Int) (s : State), s.cvalid = true →
    (∀ v ∈ values, s.clow.toInt < v ∧ v < s.chigh.toInt) →
    ∃ t, transactAll (values.map fun v => encode (.ceval v)) s = .next t ∧
      t.cstate = s.cstate ∧ t.cvalid = true ∧ t.chigh = s.chigh ∧ t.clow = s.clow ∧ t.errf = s.errf

/-- What moves CSTATE, which the spec derives in R145: only the classification step, through CEVAL or a ready PROC, and a
successful CINIT, to Safe. -/
def Obligations.OnlyClassificationOrCinitMovesState : Prop :=
  ∀ (i : Instr) (s t : State), exec i s = .next t → t.cstate ≠ s.cstate →
    (∃ v, i = .ceval v ∧ s.cvalid = true ∧ t.cstate = classifyNext v s) ∨
    (∃ raw, i = .proc raw ∧ s.cvalid = true ∧ t.fcount.val = 5 ∧ t.cstate = classifyNext (tdiv t.fsum.toInt 5) s) ∨
    (∃ high low, i = .cinit high low ∧ s.cvalid = false ∧ low ≤ high ∧ t.cstate = .Safe)

/-- R28: the thresholds are written only by a successful CINIT and by reset; so with CVALID = 1 no edge but a reset edge
changes them, or CVALID. -/
def Obligations.ThresholdsAreFixedUntilReset : Prop :=
  ∀ s t : State, step s = .next t → (pinsNow s).rst = false →
    (s.cvalid = true → t.chigh = s.chigh ∧ t.clow = s.clow ∧ t.cvalid = true) ∧
    (t.chigh ≠ s.chigh ∨ t.clow ≠ s.clow ∨ t.cvalid ≠ s.cvalid →
      ∃ w high low, s.phase = .busy w 0 ∧ decodeWord w = .ok (.cinit high low) ∧ s.cvalid = false ∧ low ≤ high ∧
        t.cvalid = true ∧ t.chigh.toInt = high ∧ t.clow.toInt = low)

/-! ## Pipeline and control -/

/-- R160: PROC with CVALID = 1 completes: the filter takes the temperature, the classifier the smoothed value when the filter
is ready and only then; D0 is the temperature, D1 the smoothed value or 0; no other register changes. -/
def Obligations.ProcConvertsFiltersAndClassifies : Prop :=
  ∀ (raw : Nat) (s : State), s.cvalid = true →
    ∃ t, exec (.proc raw) s = .next t ∧
      t = { s with fbuf := t.fbuf, fsum := t.fsum, fidx := t.fidx, fcount := t.fcount, cstate := t.cstate, rspq := t.rspq } ∧
      (∀ i : Fin 5, t.fbuf.get i = if i = s.fidx then BitVec.ofInt 16 (convert raw) else s.fbuf.get i) ∧
      (s.fcount.val < 5 → t.fsum = s.fsum + BitVec.ofInt 32 (convert raw) ∧ t.fcount.val = s.fcount.val + 1) ∧
      (s.fcount.val = 5 → t.fcount.val = 5 ∧
        t.fsum = s.fsum - (s.fbuf.get s.fidx).signExtend 32 + BitVec.ofInt 32 (convert raw)) ∧
      t.fidx.val = (s.fidx.val + 1) % 5 ∧
      rspStatus t.rspq = 0#4 ∧ rspStateFlag t.rspq = t.cstate.bit ∧ (rspD0 t.rspq).toInt = convert raw ∧
      (s.fcount.val < 4 → rspReadyFlag t.rspq = 0#1 ∧ rspD1 t.rspq = 0#16 ∧ t.cstate = s.cstate) ∧
      (4 ≤ s.fcount.val → rspReadyFlag t.rspq = 1#1 ∧ rspD1 t.rspq = BitVec.ofInt 16 (tdiv t.fsum.toInt 5) ∧
        t.cstate = classifyNext (tdiv t.fsum.toInt 5) s)

/-- PROC is the chain of the single commands "Converter → Filter → Classifier" (R160, R1): CONV's temperature fed to FUPD,
and FUPD's smoothed value, when READY, to CEVAL; the registers and the response's fields agree. -/
def Obligations.ProcIsTheChainOfTheSingleCommands : Prop :=
  ∀ (raw : Nat) (s : State), s.cvalid = true → FilterInv s →
    ∃ a b c t, exec (.conv raw) s = .next a ∧
      exec (.fupd (rspD0 a.rspq).toInt) a = .next b ∧
      (if rspReadyFlag b.rspq = 1#1 then exec (.ceval (rspD0 b.rspq).toInt) b = .next c else c = b) ∧
      exec (.proc raw) s = .next t ∧
      { t with rspq := c.rspq } = c ∧
      rspD0 t.rspq = rspD0 a.rspq ∧ rspD1 t.rspq = rspD0 b.rspq ∧ rspReadyFlag t.rspq = rspReadyFlag b.rspq ∧
      rspStateFlag t.rspq = rspStateFlag c.rspq

/-- Under PROC the range invariant holds by construction (R125, R160; the widths the spec derives in R163): samples in
[-400, 1250] stay so, and D1 and D0 of the response lie there or D1 is the fill value. -/
def Obligations.ProcKeepsSamplesInTemperatureRange : Prop :=
  ∀ (raw : Nat) (s t : State), s.cvalid = true → FilterInv s → SamplesInRange s → exec (.proc raw) s = .next t →
    SamplesInRange t ∧ FilterInv t ∧
    (-400 ≤ (rspD0 t.rspq).toInt ∧ (rspD0 t.rspq).toInt ≤ 1250) ∧
    (-400 ≤ (rspD1 t.rspq).toInt ∧ (rspD1 t.rspq).toInt ≤ 1250)

/-- R55, by R161: RDREG of each index that names a register completes, changes nothing but the response, and gives the
register's 32-bit value across D1 and D0; every other index raises ERR_BADREG and changes nothing but ERRF bit 3. -/
def Obligations.RdregReadsTheRegisterMap : Prop :=
  (∀ (s : State) (index : Nat) (v : BitVec 32),
    (index, v) ∈
      [(0x00, (s.fbuf.get 0).signExtend 32), (0x01, (s.fbuf.get 1).signExtend 32), (0x02, (s.fbuf.get 2).signExtend 32),
       (0x03, (s.fbuf.get 3).signExtend 32), (0x04, (s.fbuf.get 4).signExtend 32), (0x05, s.fsum),
       (0x06, BitVec.ofNat 32 s.fcount.val), (0x07, BitVec.ofNat 32 s.fidx.val),
       (0x08, s.chigh.signExtend 32), (0x09, s.clow.signExtend 32),
       (0x0A, s.cstate.bit.zeroExtend 32 + (if s.cvalid = true then 2#32 else 0#32)), (0x0B, s.errf.zeroExtend 32)] →
    ∃ t, exec (.rdreg index) s = .next t ∧ t = { s with rspq := t.rspq } ∧
      rspD1 t.rspq ++ rspD0 t.rspq = v ∧ rspStatus t.rspq = 0#4 ∧ rspReadyFlag t.rspq = 0#1 ∧
      rspStateFlag t.rspq = s.cstate.bit) ∧
  (∀ (index : Nat) (s : State), 0x000B < index →
    ∃ t, exec (.rdreg index) s = .next t ∧ t = { s with errf := s.errf ||| 0b01000#5, rspq := t.rspq } ∧
      rspStatus t.rspq = 4#4 ∧ rspReadyFlag t.rspq = 0#1 ∧ rspStateFlag t.rspq = s.cstate.bit ∧
      rspD1 t.rspq = 0#16 ∧ rspD0 t.rspq = 0#16)

/-- R210: the whole architectural state, apart from PHASE and RSPQ, is observable through RDREG: two states that answer every
index alike have the same registers. -/
def Obligations.RdregObservesEveryRegister : Prop :=
  ∀ s t : State, (∀ index : Nat, index ≤ 0x000B → ∃ a b, exec (.rdreg index) s = .next a ∧ exec (.rdreg index) t = .next b ∧
      rspD1 a.rspq = rspD1 b.rspq ∧ rspD0 a.rspq = rspD0 b.rspq) →
    registersOf { s with rspq := 0#40 } = registersOf { t with rspq := 0#40 }

/-- R162: OP 0x00 is NOP whatever A and B are. It completes in every state and only responds, with CSTATE. -/
def Obligations.NopOnlyReportsTheState : Prop :=
  (∀ a b : BitVec 16, decodeWord (cmdWord 0x00#8 b a) = .ok .nop) ∧ decodeWord 0x0000000000#40 = .ok .nop ∧
  (∀ s : State, ∃ t, exec .nop s = .next t ∧ t = { s with rspq := t.rspq } ∧
    (s.cstate = .Safe → t.rspq = 0x0000000000#40) ∧ (s.cstate = .Unsafe → t.rspq = 0x0400000000#40))

/-! ## Errors and flags -/

/-- R203: a command that fails, with STATUS k in 1..5, sets ERRF bit k - 1, changes no other register, and responds with no
READY, no data and the unchanged CSTATE; one that ends with OK leaves ERRF alone. -/
def Obligations.ErrorsArePreciseAndRecorded : Prop :=
  ∀ (w : CmdWord) (s t : State), runWord w s = .next t →
    (rspStatus t.rspq = 0#4 → t.errf = s.errf) ∧
    (rspStatus t.rspq ≠ 0#4 → ∃ k : Nat, 1 ≤ k ∧ k ≤ 5 ∧ (rspStatus t.rspq).toNat = k ∧
      t = { s with errf := s.errf ||| (1#5 <<< (k - 1)), rspq := t.rspq } ∧
      rspReadyFlag t.rspq = 0#1 ∧ rspStateFlag t.rspq = s.cstate.bit ∧ rspD1 t.rspq = 0#16 ∧ rspD0 t.rspq = 0#16)

/-- R202: the edge that executes a command ending with STATUS k in 1..5 sets ERRF bit k - 1 and no other; no other edge sets
one, no edge but a reset edge clears one, and a reset edge clears them all. -/
def Obligations.ErrorFlagsAreStickyUntilReset : Prop :=
  ∀ s t : State, step s = .next t →
    ((pinsNow s).rst = true → t.errf = 0#5) ∧
    ((pinsNow s).rst = false →
      s.errf &&& t.errf = s.errf ∧
      ((∀ w, s.phase ≠ .busy w 0) → t.errf = s.errf) ∧
      (∀ w, s.phase = .busy w 0 → rspStatus t.rspq = 0#4 → t.errf = s.errf) ∧
      (∀ w, s.phase = .busy w 0 → rspStatus t.rspq ≠ 0#4 → (rspStatus t.rspq).toNat ≤ 5 ∧
        t.errf = s.errf ||| (1#5 <<< ((rspStatus t.rspq).toNat - 1))))

/-- R34: READY is 1 exactly when the word is an FUPD, or a PROC with CVALID = 1, and FCOUNT = 5 after the update; STATE is
CSTATE after the command, for every word. -/
def Obligations.ReadyAndStateFlagsOfEveryResponse : Prop :=
  ∀ (w : CmdWord) (s t : State), runWord w s = .next t →
    rspStateFlag t.rspq = t.cstate.bit ∧
    (rspReadyFlag t.rspq = 1#1 ↔
      ((∃ x, decodeWord w = .ok (.fupd x)) ∨ (∃ raw, decodeWord w = .ok (.proc raw) ∧ s.cvalid = true)) ∧ t.fcount.val = 5)

/-! ## Reset and handshake -/

/-- R35: every register's reset value, read slot by slot. -/
def Obligations.ResetLeavesTheStatedValues : Prop :=
  (∀ i : Fin 5, State.reset.fbuf.get i = 0#16) ∧ State.reset.fsum = 0#32 ∧ State.reset.fcount.val = 0 ∧
  State.reset.fidx.val = 0 ∧ State.reset.cstate = .Safe ∧ State.reset.chigh = 0#16 ∧ State.reset.clow = 0#16 ∧
  State.reset.cvalid = false ∧ State.reset.errf = 0#5 ∧ State.reset.phase = .idle ∧ State.reset.rspq = 0x0000000000#40

/-- R231: an edge with rst = 1 gives every register its reset value in whatever phase, so that a command in flight is
abandoned and a presented response withdrawn; while rst = 1 the block is neither ready nor presents anything. -/
def Obligations.ResetEdgeRestoresEveryRegister : Prop :=
  ∀ s : State, (pinsNow s).rst = true →
    (∃ t, step s = .next t ∧ registersOf t = State.reset ∧ t.phase = .idle) ∧
    cmdReady true s = false ∧ rspValid true s = false

/-- R230: cmd_ready, rsp_valid and rsp_word as functions of PHASE, RSPQ and rst. That rsp_word has no value while
rsp_valid = 0 is the model's choice (log entry 11). -/
def Obligations.PortsShowThePhase : Prop :=
  ∀ (rst : Bool) (s : State),
    (cmdReady rst s = true ↔ s.phase = .idle ∧ rst = false) ∧ (rspValid rst s = true ↔ s.phase = .resp ∧ rst = false) ∧
    (rspValid rst s = true → rspWord rst s = some s.rspq) ∧ (rspValid rst s = false → rspWord rst s = none)

/-- Acceptance and where the command pins matter (R234, R211). At an edge with cmd_valid = 1 and cmd_ready = 1 exactly the
offered word is captured and PHASE becomes BUSY. At an edge with cmd_ready = 0 neither command pin matters. At an IDLE edge with
rst = 0 and cmd_valid = 0, whatever cmd_word shows, the block holds all its state. That BUSY carries the word and the edges left
is the model's inference (log entry 4), and LAT is its free value (log entry 3). -/
def Obligations.AcceptanceCapturesTheOfferedWord : Prop :=
  ∀ s : State,
    (cmdReady (pinsNow s).rst s = true → (pinsNow s).cmdValid = true →
      ∃ t, step s = .next t ∧ t.phase = .busy (pinsNow s).cmdWord (Config.lat s.latTick - 1) ∧
        registersOf t = registersOf s ∧ t.executed = s.executed ∧ t.taken = s.taken ∧ t.inputs = s.inputs.tail) ∧
    (∀ (p : Pins) (rest : List Pins) (valid : Bool) (word : CmdWord), s.inputs = p :: rest →
      cmdReady p.rst s = false →
      step s = step { s with inputs := { p with cmdValid := valid, cmdWord := word } :: rest }) ∧
    (s.phase = .idle → (pinsNow s).rst = false → (pinsNow s).cmdValid = false →
      step s = .next { s with inputs := s.inputs.tail })

/-- A step runs the decoded command (R235, R80): where the accepted word is due and rst = 0, the step is `exec` of the command
it decodes to, on the state whose host list has moved on, then PHASE to RESP and the word recorded as executed; a word that
decodes to none raises ERR_ILLEGAL in the same way. -/
def Obligations.StepRunsTheDecodedCommand : Prop :=
  ∀ (s : State) (w : CmdWord), s.phase = .busy w 0 → (pinsNow s).rst = false →
    (∀ i t, decodeWord w = .ok i → exec i (consume s) = .next t → step s = .next (present w t)) ∧
    (∀ i, decodeWord w = .ok i → ∃ t, exec i (consume s) = .next t) ∧
    (∀ e, decodeWord w = .error e → step s = .next (present w (raiseError .illegal (consume s)))) ∧
    (∀ t : State, (present w t).phase = .resp ∧ (present w t).executed = t.executed ++ [w] ∧
      registersOf (present w t) = registersOf t)

/-- A word placed by `withFetchWord` is the command the very next step executes (log entry 7; R235). -/
def Obligations.PlacedWordRunsAtTheNextStep : Prop :=
  ∀ (s : State) (w : CmdWord), ∃ t, runWord w { s with phase := .busy w 0 } = .next t ∧
    step (s.withFetchWord 40 w.toNat) = .next (present w t)

/-- The hand-off (R236) and the host's hang (R238, which the spec derives; that it is a step which only consumes the host's move
is log entry 2): in RESP the response holds until an edge with rsp_ready = 1, at which the host takes exactly RSPQ (its record
`taken` is log entry 6) and PHASE becomes IDLE; no command is accepted at either edge. -/
def Obligations.ResponseHoldsUntilTaken : Prop :=
  ∀ s : State, s.phase = .resp → (pinsNow s).rst = false →
    ((pinsNow s).rspReady = true → ∃ t, step s = .next t ∧ t.phase = .idle ∧ t.taken = s.taken ++ [s.rspq] ∧
      registersOf t = registersOf s ∧ t.executed = s.executed) ∧
    ((pinsNow s).rspReady = false → step s = .next { s with inputs := s.inputs.tail })

/-- R235, R240, for every LAT (the free value of log entry 3): a command offered in IDLE has executed and its response is presented LAT edges after the
acceptance, if no reset comes, whatever else the host drives meanwhile. -/
def Obligations.ResponseComesLatEdgesAfterAcceptance : Prop :=
  ∀ (s : State) (p : Pins) (meanwhile rest : List Pins), s.phase = .idle → s.inputs = p :: (meanwhile ++ rest) →
    p.rst = false → p.cmdValid = true → meanwhile.length = Config.lat s.latTick → (∀ q ∈ meanwhile, q.rst = false) →
    ∃ t u : State, runWord p.cmdWord s = .next t ∧ Host.Core.run core (1 + Config.lat s.latTick) s = .next u ∧
      u.phase = .resp ∧ registersOf u = registersOf t ∧ u.executed = s.executed ++ [p.cmdWord] ∧ u.taken = s.taken ∧
      u.inputs = rest

/-- R56, R237, R241, for the patient host of `hostPins`, which waits any number of edges before each offer and before it takes
each response: a command sequence of any length ends with exactly the registers, the executed commands and the responses of the
fold of the command rules over it; and started with empty records (log entry 6) the run has then ended and is observed as the
fold is. -/
def Obligations.HandshakeRunIsTheFoldOfTheCommandRules : Prop :=
  ∀ (turns : List HostTurn) (s : State), s.phase = .idle → s.inputs = hostPins s.latTick turns →
    ∃ t u : State, transactAll (turns.map HostTurn.word) s = .next t ∧ Host.Core.run core s.inputs.length s = .next u ∧
      u = { t with inputs := [], latTick := s.latTick + turns.length } ∧ u.phase = .idle ∧
      u.executed = s.executed ++ turns.map HostTurn.word ∧ u.taken.length = s.taken.length + turns.length ∧
      (s.executed = [] → s.taken = [] →
        runEnded (turns.map HostTurn.word) u = true ∧ runObservation u = runObservation t)

/-- R33, R240: neither PHASE nor anything the host side holds affects a command's effect or its response. -/
def Obligations.OnlyRegistersAffectACommand : Prop :=
  ∀ (w : CmdWord) (s s' : State), registersOf s = registersOf s' →
    ∃ t t', runWord w s = .next t ∧ runWord w s' = .next t' ∧ registersOf t = registersOf t' ∧ t.rspq = t'.rspq

/-! ## Invariants and whole-machine rules -/

/-- R80: "the step is total": every word in every state gives a next state, and so does every edge. -/
def Obligations.EveryStepHasANextState : Prop :=
  (∀ (w : CmdWord) (s : State), ∃ t, runWord w s = .next t) ∧ (∀ s : State, ∃ t, step s = .next t)

/-- Every edge keeps the filter's, the classifier's and the response's invariants (R27, R26, R23, R31, R76, R201, R203, R34). -/
def Obligations.EveryStepKeepsTheGoodState : Prop :=
  ∀ s t : State, GoodState s → step s = .next t → GoodState t

/-- The state after reset meets them (R35). -/
def Obligations.ResetIsAGoodState : Prop := GoodState State.reset

/-- Every edge keeps the history (R56, R237): the registers are the fold of the command rules over the commands executed
since the last reset, and the responses are that fold's, one for each command, in order. -/
def Obligations.EveryStepFollowsTheHistory : Prop :=
  ∀ s t : State, FollowsHistory s → step s = .next t → FollowsHistory t

/-- The state after reset has the empty history. -/
def Obligations.ResetFollowsTheHistory : Prop := FollowsHistory State.reset

/-- R6, R208: an edge of one channel's instance changes no other channel's. -/
def Obligations.ChannelsShareNoState : Prop :=
  ∀ (k : Nat) (cs : Channels), ∃ ds, stepChannel k cs = .next ds ∧ ds.length = cs.length ∧
    (∀ j, j ≠ k → ds[j]? = cs[j]?) ∧ (∀ s, cs[k]? = some s → ∃ t, step s = .next t ∧ ds[k]? = some t)

/-! ## Assembler -/

/-- R78, R79: a line that assembles, other than a raw `.word`, gives the word of the command that its mnemonic and its operands
make; that command is well formed, and the word decodes to it. -/
def Obligations.AssembledLinesAreWellFormedCommands : Prop :=
  ∀ (line : List Char) (w : CmdWord), assembleLine line = .ok (some w) →
    lineName (stripLine line) ≠ ['.', 'w', 'o', 'r', 'd'] →
    ∃ (shape : AsmShape) (operands : List AsmOperand) (i : Instr),
      asmShape ((lineName (stripLine line)).map Char.toUpper) = some shape ∧
      readOperands (operandTexts (lineRest (stripLine line))) = some operands ∧
      makeInstr shape operands = .ok i ∧ i.wellFormed = true ∧ w = encode i ∧ decodeWord w = .ok i

/-- R79's example and R78's notes: high first then low, a hexadecimal operand is the pattern, an out-of-range operand is an
error, case does not matter, a comment starts with `;`, `.word` is raw. -/
def Obligations.AssemblerExamples : Prop :=
  assembleLine "CINIT 1000, 950".toList = .ok (some 0x0403B603E8#40) ∧
  assembleLine "fupd 0xFFFF;the same as FUPD -1".toList = assembleLine "FUPD -1".toList ∧
  assembleLine "FUPD -1".toList = .ok (some 0x020000FFFF#40) ∧
  assembleLine "CONV 65536".toList = .error .operandOutOfRange ∧
  assembleLine ".word 0x2A56781234".toList = .ok (some 0x2A56781234#40)

/-- R78, R79: every command whose operands are in range, written as its mnemonic in any case and its operands in decimal or in
hexadecimal, assembles to its one word; written with a decimal operand out of its range, it is an error. The hexadecimal digits
are written in lower case without leading zeros, which R78 neither asks for nor excludes: that such text is read is log entry 13. -/
def Obligations.EveryWrittenCommandAssembles : Prop :=
  ∀ (i : Instr) (name : List Char), name.map Char.toUpper = mnemonicText i →
    (i.wellFormed = true → ∀ radix : AsmRadix, assembleLine (asmLine name radix i) = .ok (some (encode i))) ∧
    (i.wellFormed = false → assembleLine (asmLine name .decimal i) = .error .operandOutOfRange)

/-! ## The end of a run, for every host -/

/-- R241, R56, R237, for every host, whatever it drives and for any number of edges: from a state that follows its history (the
state after reset does, and every edge keeps it), where a run of `commands` has ended, its observation is that of the fold of
the command rules over them, one response for each command (the records are log entry 6). -/
def Obligations.EveryEndedRunIsObservedAsTheFold : Prop :=
  ∀ (commands : List CmdWord) (edges : Nat) (s u : State), FollowsHistory s →
    Host.Core.run core edges s = .next u → runEnded commands u = true →
    ∃ t, transactAll commands State.reset = .next t ∧ runObservation u = runObservation t ∧
      u.taken.length = commands.length

/-! ## Hexadecimal operands out of range -/

/-- R78: "An operand out of its range is an assembly error". A hexadecimal number above 0xFFFF is no 16-bit pattern, and it is an
error as the operand of every one-operand mnemonic and as either operand of CINIT, whatever the other one is. (Its digits' letter
case and number are read as log entry 13 says.) -/
def Obligations.WideHexadecimalOperandIsRefused : Prop :=
  ∀ (name : List Char) (n : Nat), 0xFFFF < n →
    (name.map Char.toUpper ∈ ["CONV".toList, "FUPD".toList, "CEVAL".toList, "PROC".toList, "RDREG".toList] →
      assembleLine (name ++ ' ' :: '0' :: 'x' :: natText 16 n) = .error .operandOutOfRange) ∧
    (name.map Char.toUpper = "CINIT".toList → ∀ (radix : AsmRadix) (other : Int),
      assembleLine (name ++ ' ' :: (('0' :: 'x' :: natText 16 n) ++ ',' :: ' ' :: signedText radix other)) =
        .error .operandOutOfRange ∧
      assembleLine (name ++ ' ' :: (signedText radix other ++ ',' :: ' ' :: '0' :: 'x' :: natText 16 n)) =
        .error .operandOutOfRange)
end

