-- ==== Sys2Proof/Laws/Words.lean ====
section
/-! SUPPORT. The small lemmas of words: fields of a command and of a response, bit patterns of integers in range, the
truncating division. -/

namespace Sys2Proof.Machine

/-! ## Bit patterns and integers (R8, R9) -/

@[simp] theorem bits16_sext16 (v : BitVec 16) : bits16 (sext16 v) = v := BitVec.ofInt_toInt

@[simp] theorem bits32_sext32 (v : BitVec 32) : bits32 (sext32 v) = v := BitVec.ofInt_toInt

theorem sext16_bits16 {i : Int} (lo : -32768 ≤ i) (hi : i ≤ 32767) : sext16 (bits16 i) = i := by
  simp only [sext16, bits16, BitVec.toInt_ofInt]
  exact Int.bmod_eq_of_le (by omega) (by omega)

theorem sext32_bits32 {i : Int} (lo : -2147483648 ≤ i) (hi : i ≤ 2147483647) : sext32 (bits32 i) = i := by
  simp only [sext32, bits32, BitVec.toInt_ofInt]
  exact Int.bmod_eq_of_le (by omega) (by omega)

theorem sext16_bounds (v : BitVec 16) : -32768 ≤ sext16 v ∧ sext16 v ≤ 32767 := by
  have lo := @BitVec.le_toInt 16 v
  have hi := @BitVec.toInt_lt 16 v
  simp only [sext16]
  omega

theorem bits32_sext32_add (v : BitVec 32) (i : Int) : bits32 (sext32 v + i) = v + BitVec.ofInt 32 i := by
  simp [bits32, sext32, BitVec.ofInt_add]

theorem bits32_sext16 (v : BitVec 16) : bits32 (sext16 v) = v.signExtend 32 := rfl

/-- Five times the truncated quotient lies within the dividend, short of it by less than 5, on its side of zero. -/
theorem tdiv_five_spec (a : Int) : (0 ≤ a → 0 ≤ a - 5 * tdiv a 5 ∧ a - 5 * tdiv a 5 < 5) ∧
    (a ≤ 0 → a - 5 * tdiv a 5 ≤ 0 ∧ -5 < a - 5 * tdiv a 5) := by
  simp only [tdiv, udiv, Int.ofNat_eq_natCast]
  split <;> omega

theorem tdiv_eq_tdiv (a : Int) (b : Nat) : tdiv a b = Int.tdiv a b := by
  cases a with
  | ofNat n => simp [tdiv, udiv, Int.tdiv]
  | negSucc n =>
    have neg : ¬ (0 ≤ Int.negSucc n) := by omega
    simp only [tdiv, if_neg neg, udiv]
    rfl

/-- A value already in the range is not changed by the clamp (R9). -/
theorem clamp_eq_self {v lo hi : Int} (above : lo ≤ v) (below : v ≤ hi) : clamp v lo hi = v := by
  unfold clamp
  split
  · omega
  · split <;> omega

/-! ## Fields of a command word (R70) -/

@[simp] theorem opField_cmdWord (op : BitVec 8) (b a : BitVec 16) : opField (cmdWord op b a) = op := by
  apply BitVec.eq_of_getLsbD_eq
  intro i hi
  have out : ¬ (32 + i < 16 + 16) := by omega
  have at32 : 32 + i - (16 + 16) = i := by omega
  simp only [opField, cmdWord, BitVec.getLsbD_extractLsb', BitVec.getLsbD_append, out, at32, hi, if_false, decide_true, Bool.true_and]

@[simp] theorem bField_cmdWord (op : BitVec 8) (b a : BitVec 16) : bField (cmdWord op b a) = b := by
  apply BitVec.eq_of_getLsbD_eq
  intro i hi
  have low : 16 + i < 16 + 16 := by omega
  have out : ¬ (16 + i < 16) := by omega
  have at16 : 16 + i - 16 = i := by omega
  simp only [bField, cmdWord, BitVec.getLsbD_extractLsb', BitVec.getLsbD_append, low, out, at16, hi, if_true, if_false, decide_true,
    Bool.true_and]

@[simp] theorem aField_cmdWord (op : BitVec 8) (b a : BitVec 16) : aField (cmdWord op b a) = a := by
  apply BitVec.eq_of_getLsbD_eq
  intro i hi
  have low : i < 16 + 16 := by omega
  simp only [aField, cmdWord, BitVec.getLsbD_extractLsb', BitVec.getLsbD_append, low, hi, if_true, decide_true,
    Bool.true_and, Nat.zero_add]

/-- Two neighbouring pieces of a word side by side are one piece. -/
theorem extract_append_extract {w : BitVec 40} {lo m n : Nat} :
    w.extractLsb' (lo + m) n ++ w.extractLsb' lo m = w.extractLsb' lo (n + m) :=
  BitVec.extractLsb'_append_extractLsb'_eq_extractLsb' rfl

/-- A word is its three fields. -/
theorem cmdWord_fields (w : CmdWord) : cmdWord (opField w) (bField w) (aField w) = w := by
  have low : bField w ++ aField w = w.extractLsb' 0 32 := extract_append_extract (lo := 0)
  rw [cmdWord, low]
  exact (extract_append_extract (lo := 0)).trans BitVec.extractLsb'_eq_self

/-- The five little-endian bytes of a word give the word back (R51): each byte joins the piece below it. -/
theorem wordOfBytes_wordByte (w : BitVec 40) :
    wordOfBytes (wordByte w 0) (wordByte w 1) (wordByte w 2) (wordByte w 3) (wordByte w 4) = w := by
  have two : wordByte w 1 ++ wordByte w 0 = w.extractLsb' 0 16 := extract_append_extract (lo := 0)
  have three : wordByte w 2 ++ w.extractLsb' 0 16 = w.extractLsb' 0 24 := extract_append_extract (lo := 0)
  have four : wordByte w 3 ++ w.extractLsb' 0 24 = w.extractLsb' 0 32 := extract_append_extract (lo := 0)
  have whole : wordByte w 4 ++ w.extractLsb' 0 32 = w.extractLsb' 0 40 := extract_append_extract (lo := 0)
  rw [wordOfBytes, two, three, four]
  exact whole.trans BitVec.extractLsb'_eq_self

end Sys2Proof.Machine
end

