-- ==== Sys2Proof/Laws/Assembler.lean ====
section
/-! SUPPORT. What the assembler reads in a line that a command is written as (30_encoding.md R78): digits, operands, the
operand list, and the line's first word. -/

namespace Sys2Proof.Machine

/-! ## Digits -/

theorem digitValue_digitChar {base d : Nat} (le : base ≤ 16) (lt : d < base) : digitValue base (Nat.digitChar d) = some d := by
  have value : ∀ e < 16, digitValue 16 (Nat.digitChar e) = some e ∧ ∀ b ≤ 16, e < b → digitValue b (Nat.digitChar e) = some e := by
    decide
  exact (value d (by omega)).2 base le lt

/-- The last digit of a number read most significant digit first. -/
theorem digitsValue_concat (base : Nat) (c : Char) : ∀ (acc : Nat) (text : List Char), text ≠ [] →
    digitsValue base acc (text ++ [c]) = (digitsValue base acc text).bind fun v => (digitValue base c).map (v * base + ·)
  | acc, [b], _ => by
    cases h : digitValue base b <;> simp [digitsValue, h]
  | acc, b :: b' :: text, _ => by
    have tail (v : Nat) := digitsValue_concat base c v (b' :: text) (List.cons_ne_nil _ _)
    cases h : digitValue base b with
    | none => simp [digitsValue, h]
    | some v => simpa [digitsValue, h] using tail (acc * base + v)

theorem digitsText_ne_nil (base fuel n : Nat) : digitsText base fuel n ≠ [] := by
  cases fuel with
  | zero => simp [digitsText]
  | succ fuel =>
    unfold digitsText
    split <;> simp

theorem digitsValue_digitsText {base : Nat} (two : 2 ≤ base) (le : base ≤ 16) :
    ∀ fuel n : Nat, n ≤ fuel → digitsValue base 0 (digitsText base fuel n) = some n := by
  intro fuel
  induction fuel with
  | zero =>
    intro n small
    obtain rfl : n = 0 := by omega
    simp [digitsText, digitsValue, digitValue_digitChar le (show 0 < base by omega)]
  | succ fuel ih =>
    intro n small
    unfold digitsText
    split
    · rename_i lt
      simp [digitsValue, digitValue_digitChar le lt]
    · have lt : n % base < base := Nat.mod_lt _ (by omega)
      have quotient : n / base ≤ fuel := by
        have : n / base < n := Nat.div_lt_self (by omega) two
        omega
      rw [digitsValue_concat _ _ _ _ (digitsText_ne_nil base fuel (n / base)), ih _ quotient, digitValue_digitChar le lt]
      simp [Nat.div_add_mod']

/-- A number written and read back. -/
theorem digitsValue_natText {base : Nat} (two : 2 ≤ base) (le : base ≤ 16) (n : Nat) : digitsValue base 0 (natText base n) = some n :=
  digitsValue_digitsText two le n n (Nat.le_refl n)

/-- A character no digit is: a blank, a comma, a comment's start, a sign, or the x of `0x`. -/
def separates (c : Char) : Bool := c == ' ' || c == ',' || c == ';' || c == '-' || c == 'x'

theorem separates_digitChar (n : Nat) : separates (Nat.digitChar n) = false := by
  by_cases h : n < 16
  · exact (show ∀ m < 16, separates (Nat.digitChar m) = false by decide) n h
  · obtain ⟨m, rfl⟩ : ∃ m, n = 16 + m := ⟨n - 16, by omega⟩
    have star : Nat.digitChar (16 + m) = '*' := by simp +arith [Nat.digitChar]
    rw [star]
    decide

theorem separates_natText (base n : Nat) : ∀ c ∈ natText base n, separates c = false := by
  suffices ∀ fuel n : Nat, ∀ c ∈ digitsText base fuel n, separates c = false from this n n
  intro fuel
  induction fuel with
  | zero =>
    intro n c mem
    exact List.mem_singleton.1 mem ▸ separates_digitChar n
  | succ fuel ih =>
    intro n c mem
    unfold digitsText at mem
    split at mem
    · exact List.mem_singleton.1 mem ▸ separates_digitChar n
    · rcases List.mem_append.1 mem with mem | mem
      · exact ih _ c mem
      · exact List.mem_singleton.1 mem ▸ separates_digitChar _

/-! ## Operands -/

/-- An operand's text: not empty, and with no character that would end it. -/
def OperandText (text : List Char) : Prop := text ≠ [] ∧ ∀ c ∈ text, c ≠ ' ' ∧ c ≠ ',' ∧ c ≠ ';'

theorem operandText_natText (base n : Nat) : OperandText (natText base n) := by
  refine ⟨digitsText_ne_nil base n n, fun c mem => ?_⟩
  have := separates_natText base n c mem
  simp only [separates, Bool.or_eq_false_iff, beq_eq_false_iff_ne] at this
  exact ⟨this.1.1.1.1, this.1.1.1.2, this.1.1.2⟩

theorem operandText_cons {c : Char} {text : List Char} (ok : c ≠ ' ' ∧ c ≠ ',' ∧ c ≠ ';') (rest : OperandText text) :
    OperandText (c :: text) :=
  ⟨List.cons_ne_nil _ _, List.forall_mem_cons.2 ⟨ok, rest.2⟩⟩

theorem operandText_unsigned (radix : AsmRadix) (n : Nat) : OperandText (unsignedText radix n) := by
  cases radix with
  | decimal => exact operandText_natText 10 n
  | hexadecimal => exact operandText_cons (by decide) (operandText_cons (by decide) (operandText_natText 16 n))

theorem operandText_signed (radix : AsmRadix) (i : Int) : OperandText (signedText radix i) := by
  cases radix with
  | decimal =>
    simp only [signedText]
    split
    · exact operandText_cons (by decide) (operandText_natText 10 _)
    · exact operandText_natText 10 _
  | hexadecimal => exact operandText_cons (by decide) (operandText_cons (by decide) (operandText_natText 16 _))

/-- Text that starts with no sign and is no `0x` number is read as a decimal number. -/
theorem parseOperand_natText (n : Nat) : parseOperand (natText 10 n) = some (.decimal (Int.ofNat n)) := by
  have value := digitsValue_natText (base := 10) (by decide) (by decide) n
  have plain := separates_natText 10 n
  generalize natText 10 n = text at value plain
  unfold parseOperand
  split
  · exact absurd (plain 'x' (by simp)) (by decide)
  · exact absurd (plain '-' (by simp)) (by decide)
  · simp [value]

theorem parseOperand_hexadecimal (n : Nat) : parseOperand ('0' :: 'x' :: natText 16 n) = some (.pattern n) := by
  simp [parseOperand, digitsValue_natText (base := 16) (by decide) (by decide) n]

/-- An unsigned operand is read back, in either radix. -/
theorem parseOperand_unsigned (radix : AsmRadix) (n : Nat) :
    ∃ x, parseOperand (unsignedText radix n) = some x ∧ x.unsigned = some n := by
  cases radix with
  | decimal => exact ⟨_, parseOperand_natText n, by simp [AsmOperand.unsigned]⟩
  | hexadecimal => exact ⟨_, parseOperand_hexadecimal n, rfl⟩

/-- A signed operand is read back: in decimal whatever it is, as a pattern where a 16-bit field holds it. -/
theorem parseOperand_signed (radix : AsmRadix) (i : Int) (held : radix = .decimal ∨ inSigned16 i = true) :
    ∃ x, parseOperand (signedText radix i) = some x ∧ x.signed = some i := by
  cases radix with
  | decimal =>
    simp only [signedText]
    split
    · rename_i neg
      refine ⟨.decimal (-Int.ofNat i.natAbs), ?_, ?_⟩
      · simp [parseOperand, digitsValue_natText (base := 10) (by decide) (by decide) i.natAbs]
      · simp only [AsmOperand.signed, Int.ofNat_eq_natCast, Option.some.injEq]
        omega
    · refine ⟨_, parseOperand_natText _, ?_⟩
      simp only [AsmOperand.signed, Int.ofNat_eq_natCast, Option.some.injEq]
      omega
  | hexadecimal =>
    have range : -32768 ≤ i ∧ i ≤ 32767 := by simpa [inSigned16] using held
    refine ⟨_, parseOperand_hexadecimal _, ?_⟩
    have fits : (fieldOfSigned i).toNat ≤ 0xFFFF := Nat.le_of_lt_succ (fieldOfSigned i).isLt
    simp only [AsmOperand.signed, if_pos fits, Option.some.injEq, BitVec.ofNat_toNat, BitVec.setWidth_eq]
    exact sext16_bits16 range.1 range.2

/-- An operand alone in the list. -/
theorem splitOperands_one {text : List Char} (plain : ∀ c ∈ text, c ≠ ',') : splitOperands text = [text] := by
  induction text with
  | nil => rfl
  | cons c text ih =>
    have here : c ≠ ',' := plain c (by simp)
    unfold splitOperands
    split
    · contradiction
    · rename_i eq
      exact absurd (List.cons.inj eq).1 here
    · rename_i eq
      obtain ⟨rfl, rfl⟩ := List.cons.inj eq
      rw [ih fun d mem => plain d (by simp [mem])]

/-- An operand before ", ". -/
theorem splitOperands_comma {text : List Char} (plain : ∀ c ∈ text, c ≠ ',') (rest : List Char) :
    splitOperands (text ++ ',' :: ' ' :: rest) = text :: splitOperands rest := by
  induction text with
  | nil => rfl
  | cons c text ih =>
    have here : c ≠ ',' := plain c (by simp)
    rw [List.cons_append]
    conv_lhs => unfold splitOperands
    split
    · contradiction
    · rename_i eq
      exact absurd (List.cons.inj eq).1 here
    · rename_i eq
      obtain ⟨rfl, rfl⟩ := List.cons.inj eq
      rw [ih fun d mem => plain d (by simp [mem])]

/-! ## The line -/

/-- A name whose capitals are letters A to Z holds no blank, comment or full stop. -/
theorem name_plain {name capitals : List Char} (same : name.map Char.toUpper = capitals) (letters : ∀ c ∈ capitals, 65 ≤ c.toNat) :
    ∀ c ∈ name, c ≠ ' ' ∧ c ≠ ';' ∧ c ≠ '.' := by
  intro c mem
  have upper := letters c.toUpper (same ▸ List.mem_map_of_mem mem)
  have low : (Char.toUpper ' ').toNat = 32 ∧ (Char.toUpper ';').toNat = 59 ∧ (Char.toUpper '.').toNat = 46 := ⟨rfl, rfl, rfl⟩
  refine ⟨?_, ?_, ?_⟩
  · rintro rfl
    omega
  · rintro rfl
    omega
  · rintro rfl
    omega

theorem mnemonicText_letters (i : Instr) : ∀ c ∈ mnemonicText i, 65 ≤ c.toNat := by
  cases i <;> simp [mnemonicText]

/-- A line that starts and ends with no blank and holds no comment is its own text. -/
theorem stripLine_plain {text : List Char} (noComment : ∀ c ∈ text, c ≠ ';') (first : text.head? ≠ some ' ')
    (last : text.getLast? ≠ some ' ') : stripLine text = text := by
  have body : text.takeWhile (· ≠ ';') = text := List.takeWhile_eq_self_iff.2 (by simpa using noComment)
  have trim (l : List Char) (h : l.head? ≠ some ' ') : l.dropWhile (· = ' ') = l := by
    cases l with
    | nil => rfl
    | cons c l =>
      have : c ≠ ' ' := by simpa using h
      simp [this]
  have back : text.reverse.head? ≠ some ' ' := by simpa using last
  simp only [stripLine, body, trim text first, trim _ back, List.reverse_reverse]

/-- A command's line: the name, then nothing or a blank and the operands. -/
theorem line_parts {name rest : List Char} (plain : ∀ c ∈ name, c ≠ ' ') (parts : rest = [] ∨ ∃ tail, rest = ' ' :: tail) :
    lineName (name ++ rest) = name ∧ lineRest (name ++ rest) = rest := by
  have pass : ∀ c ∈ name, decide (c ≠ ' ') = true := fun c mem => decide_eq_true (plain c mem)
  unfold lineName lineRest
  rw [List.takeWhile_append_of_pos pass, List.dropWhile_append_of_pos pass]
  rcases parts with rfl | ⟨tail, rfl⟩
  · exact ⟨List.append_nil _, rfl⟩
  · exact ⟨List.append_nil _, rfl⟩

/-- The last character of an operand's text is no blank, whatever stands before it. -/
theorem getLast_operandText {text : List Char} (h : OperandText text) (before : List Char) : (before ++ text).getLast? ≠ some ' ' := by
  rw [List.getLast?_append_of_ne_nil _ h.1, List.getLast?_eq_some_getLast h.1]
  exact fun eq => (h.2 _ (List.getLast_mem h.1)).1 (Option.some.inj eq)

/-- What can stand after a mnemonic: no comment, and either nothing or a blank and text that ends in no blank. -/
def AfterMnemonic (rest : List Char) : Prop :=
  (∀ c ∈ rest, c ≠ ';') ∧ (rest = [] ∨
    (∃ tail, rest = ' ' :: tail) ∧ ∀ before : List Char, (before ++ rest).getLast? ≠ some ' ')

theorem afterMnemonic_nil : AfterMnemonic [] := ⟨by simp, .inl rfl⟩

/-- One operand after the mnemonic. -/
theorem afterMnemonic_one {text : List Char} (h : OperandText text) : AfterMnemonic (' ' :: text) := by
  refine ⟨List.forall_mem_cons.2 ⟨by decide, fun c mem => (h.2 c mem).2.2⟩, .inr ⟨⟨text, rfl⟩, fun before => ?_⟩⟩
  simpa using getLast_operandText h (before ++ [' '])

/-- Two operands after the mnemonic, separated by ", ". -/
theorem afterMnemonic_two {first second : List Char} (h : OperandText first) (l : OperandText second) :
    AfterMnemonic (' ' :: (first ++ ',' :: ' ' :: second)) := by
  refine ⟨?_, .inr ⟨⟨_, rfl⟩, fun before => ?_⟩⟩
  · intro c mem
    simp only [List.mem_cons, List.mem_append] at mem
    rcases mem with rfl | mem | rfl | rfl | mem
    · decide
    · exact (h.2 c mem).2.2
    · decide
    · decide
    · exact (l.2 c mem).2.2
  · simpa using getLast_operandText l (before ++ ' ' :: (first ++ [',', ' ']))

theorem afterMnemonic_operandsText (radix : AsmRadix) (i : Instr) : AfterMnemonic (operandsText radix i) := by
  cases i with
  | nop => exact afterMnemonic_nil
  | conv raw => exact afterMnemonic_one (operandText_unsigned radix raw)
  | fupd sample => exact afterMnemonic_one (operandText_signed radix sample)
  | frst => exact afterMnemonic_nil
  | cinit high low => exact afterMnemonic_two (operandText_signed radix high) (operandText_signed radix low)
  | ceval value => exact afterMnemonic_one (operandText_signed radix value)
  | proc raw => exact afterMnemonic_one (operandText_unsigned radix raw)
  | rdreg index => exact afterMnemonic_one (operandText_unsigned radix index)

/-- A written line assembles as its shape and its operands say: the name is taken in capitals, and what follows is split. -/
theorem assembleLine_written {name rest : List Char} {i : Instr} (same : name.map Char.toUpper = mnemonicText i)
    (after : AfterMnemonic rest) {shape : AsmShape} (known : asmShape (mnemonicText i) = some shape)
    {operands : List AsmOperand} (read : readOperands (operandTexts rest) = some operands) :
    assembleLine (name ++ rest) = (makeInstr shape operands).map fun j => some (encode j) := by
  have plain := name_plain same (mnemonicText_letters i)
  obtain ⟨noComment, ending⟩ := after
  have some_name : name ≠ [] := by
    rintro rfl
    cases i <;> simp [mnemonicText] at same
  obtain ⟨c, tail, rfl⟩ := List.exists_cons_of_ne_nil some_name
  have noWord : c :: tail ≠ ['.', 'w', 'o', 'r', 'd'] := fun eq => (plain '.' (by rw [eq]; decide)).2.2 rfl
  obtain ⟨nameIs, restIs⟩ := line_parts (fun d mem => (plain d mem).1) (ending.imp_right And.left)
  have stripped : stripLine (c :: tail ++ rest) = c :: tail ++ rest := by
    refine stripLine_plain ?_ ?_ ?_
    · intro d mem
      rcases List.mem_append.1 mem with mem | mem
      · exact (plain d mem).2.1
      · exact noComment d mem
    · simpa using (plain c (by simp)).1
    · rcases ending with rfl | ⟨-, last⟩
      · rw [List.append_nil, List.getLast?_eq_some_getLast (List.cons_ne_nil _ _)]
        exact fun eq => (plain _ (List.getLast_mem _)).1 (Option.some.inj eq)
      · exact last _
  have filled : c :: tail ++ rest ≠ [] := by simp
  simp only [assembleLine, stripped, if_neg filled, lineInstr, nameIs, restIs, if_neg noWord, same, known, read]

end Sys2Proof.Machine
end

