-- ==== Sys2Proof/Laws/State.lean ====
section
/-! SUPPORT. One lemma per field per named update of State, true by rfl, so that no later proof unfolds a record update. -/

namespace Sys2Proof.Machine

/-! ## respond (R11) -/

@[simp] theorem respond_fbuf (st : Status) (rdy : Bool) (c : CState) (d1 d0 : Int) (s : State) : (respond st rdy c d1 d0 s).fbuf = s.fbuf := rfl
@[simp] theorem respond_fsum (st : Status) (rdy : Bool) (c : CState) (d1 d0 : Int) (s : State) : (respond st rdy c d1 d0 s).fsum = s.fsum := rfl
@[simp] theorem respond_fcount (st : Status) (rdy : Bool) (c : CState) (d1 d0 : Int) (s : State) : (respond st rdy c d1 d0 s).fcount = s.fcount := rfl
@[simp] theorem respond_fidx (st : Status) (rdy : Bool) (c : CState) (d1 d0 : Int) (s : State) : (respond st rdy c d1 d0 s).fidx = s.fidx := rfl
@[simp] theorem respond_chigh (st : Status) (rdy : Bool) (c : CState) (d1 d0 : Int) (s : State) : (respond st rdy c d1 d0 s).chigh = s.chigh := rfl
@[simp] theorem respond_clow (st : Status) (rdy : Bool) (c : CState) (d1 d0 : Int) (s : State) : (respond st rdy c d1 d0 s).clow = s.clow := rfl
@[simp] theorem respond_cstate (st : Status) (rdy : Bool) (c : CState) (d1 d0 : Int) (s : State) : (respond st rdy c d1 d0 s).cstate = s.cstate := rfl
@[simp] theorem respond_cvalid (st : Status) (rdy : Bool) (c : CState) (d1 d0 : Int) (s : State) : (respond st rdy c d1 d0 s).cvalid = s.cvalid := rfl
@[simp] theorem respond_errf (st : Status) (rdy : Bool) (c : CState) (d1 d0 : Int) (s : State) : (respond st rdy c d1 d0 s).errf = s.errf := rfl
@[simp] theorem respond_rspq (st : Status) (rdy : Bool) (c : CState) (d1 d0 : Int) (s : State) : (respond st rdy c d1 d0 s).rspq = responseWord st rdy c d1 d0 := rfl
@[simp] theorem respond_phase (st : Status) (rdy : Bool) (c : CState) (d1 d0 : Int) (s : State) : (respond st rdy c d1 d0 s).phase = s.phase := rfl
@[simp] theorem respond_inputs (st : Status) (rdy : Bool) (c : CState) (d1 d0 : Int) (s : State) : (respond st rdy c d1 d0 s).inputs = s.inputs := rfl
@[simp] theorem respond_executed (st : Status) (rdy : Bool) (c : CState) (d1 d0 : Int) (s : State) : (respond st rdy c d1 d0 s).executed = s.executed := rfl
@[simp] theorem respond_taken (st : Status) (rdy : Bool) (c : CState) (d1 d0 : Int) (s : State) : (respond st rdy c d1 d0 s).taken = s.taken := rfl
@[simp] theorem respond_latTick (st : Status) (rdy : Bool) (c : CState) (d1 d0 : Int) (s : State) : (respond st rdy c d1 d0 s).latTick = s.latTick := rfl

/-! ## raiseError (R202, R203) -/

@[simp] theorem raiseError_fbuf (e : ErrorKind) (s : State) : (raiseError e s).fbuf = s.fbuf := rfl
@[simp] theorem raiseError_fsum (e : ErrorKind) (s : State) : (raiseError e s).fsum = s.fsum := rfl
@[simp] theorem raiseError_fcount (e : ErrorKind) (s : State) : (raiseError e s).fcount = s.fcount := rfl
@[simp] theorem raiseError_fidx (e : ErrorKind) (s : State) : (raiseError e s).fidx = s.fidx := rfl
@[simp] theorem raiseError_chigh (e : ErrorKind) (s : State) : (raiseError e s).chigh = s.chigh := rfl
@[simp] theorem raiseError_clow (e : ErrorKind) (s : State) : (raiseError e s).clow = s.clow := rfl
@[simp] theorem raiseError_cstate (e : ErrorKind) (s : State) : (raiseError e s).cstate = s.cstate := rfl
@[simp] theorem raiseError_cvalid (e : ErrorKind) (s : State) : (raiseError e s).cvalid = s.cvalid := rfl
@[simp] theorem raiseError_errf (e : ErrorKind) (s : State) : (raiseError e s).errf = s.errf ||| e.errfBit := rfl
@[simp] theorem raiseError_rspq (e : ErrorKind) (s : State) : (raiseError e s).rspq = responseWord (.err e) false s.cstate 0 0 := rfl
@[simp] theorem raiseError_phase (e : ErrorKind) (s : State) : (raiseError e s).phase = s.phase := rfl
@[simp] theorem raiseError_inputs (e : ErrorKind) (s : State) : (raiseError e s).inputs = s.inputs := rfl
@[simp] theorem raiseError_executed (e : ErrorKind) (s : State) : (raiseError e s).executed = s.executed := rfl
@[simp] theorem raiseError_taken (e : ErrorKind) (s : State) : (raiseError e s).taken = s.taken := rfl
@[simp] theorem raiseError_latTick (e : ErrorKind) (s : State) : (raiseError e s).latTick = s.latTick := rfl

/-! ## filterClear (R127) -/

@[simp] theorem filterClear_fbuf (s : State) : (filterClear s).fbuf = SampleRing.zero := rfl
@[simp] theorem filterClear_fsum (s : State) : (filterClear s).fsum = 0#32 := rfl
@[simp] theorem filterClear_fcount (s : State) : (filterClear s).fcount = 0 := rfl
@[simp] theorem filterClear_fidx (s : State) : (filterClear s).fidx = 0 := rfl
@[simp] theorem filterClear_chigh (s : State) : (filterClear s).chigh = s.chigh := rfl
@[simp] theorem filterClear_clow (s : State) : (filterClear s).clow = s.clow := rfl
@[simp] theorem filterClear_cstate (s : State) : (filterClear s).cstate = s.cstate := rfl
@[simp] theorem filterClear_cvalid (s : State) : (filterClear s).cvalid = s.cvalid := rfl
@[simp] theorem filterClear_errf (s : State) : (filterClear s).errf = s.errf := rfl
@[simp] theorem filterClear_rspq (s : State) : (filterClear s).rspq = s.rspq := rfl
@[simp] theorem filterClear_phase (s : State) : (filterClear s).phase = s.phase := rfl
@[simp] theorem filterClear_inputs (s : State) : (filterClear s).inputs = s.inputs := rfl
@[simp] theorem filterClear_executed (s : State) : (filterClear s).executed = s.executed := rfl
@[simp] theorem filterClear_taken (s : State) : (filterClear s).taken = s.taken := rfl
@[simp] theorem filterClear_latTick (s : State) : (filterClear s).latTick = s.latTick := rfl

/-! ## classify (R140) -/

@[simp] theorem classify_fbuf (v : Int) (s : State) : (classify v s).fbuf = s.fbuf := rfl
@[simp] theorem classify_fsum (v : Int) (s : State) : (classify v s).fsum = s.fsum := rfl
@[simp] theorem classify_fcount (v : Int) (s : State) : (classify v s).fcount = s.fcount := rfl
@[simp] theorem classify_fidx (v : Int) (s : State) : (classify v s).fidx = s.fidx := rfl
@[simp] theorem classify_chigh (v : Int) (s : State) : (classify v s).chigh = s.chigh := rfl
@[simp] theorem classify_clow (v : Int) (s : State) : (classify v s).clow = s.clow := rfl
@[simp] theorem classify_cstate (v : Int) (s : State) : (classify v s).cstate = classifyNext v s := rfl
@[simp] theorem classify_cvalid (v : Int) (s : State) : (classify v s).cvalid = s.cvalid := rfl
@[simp] theorem classify_errf (v : Int) (s : State) : (classify v s).errf = s.errf := rfl
@[simp] theorem classify_rspq (v : Int) (s : State) : (classify v s).rspq = s.rspq := rfl
@[simp] theorem classify_phase (v : Int) (s : State) : (classify v s).phase = s.phase := rfl
@[simp] theorem classify_inputs (v : Int) (s : State) : (classify v s).inputs = s.inputs := rfl
@[simp] theorem classify_executed (v : Int) (s : State) : (classify v s).executed = s.executed := rfl
@[simp] theorem classify_taken (v : Int) (s : State) : (classify v s).taken = s.taken := rfl
@[simp] theorem classify_latTick (v : Int) (s : State) : (classify v s).latTick = s.latTick := rfl

/-! ## startClassifier (R142) -/

@[simp] theorem startClassifier_fbuf (h l : Int) (s : State) : (startClassifier h l s).fbuf = s.fbuf := rfl
@[simp] theorem startClassifier_fsum (h l : Int) (s : State) : (startClassifier h l s).fsum = s.fsum := rfl
@[simp] theorem startClassifier_fcount (h l : Int) (s : State) : (startClassifier h l s).fcount = s.fcount := rfl
@[simp] theorem startClassifier_fidx (h l : Int) (s : State) : (startClassifier h l s).fidx = s.fidx := rfl
@[simp] theorem startClassifier_chigh (h l : Int) (s : State) : (startClassifier h l s).chigh = bits16 h := rfl
@[simp] theorem startClassifier_clow (h l : Int) (s : State) : (startClassifier h l s).clow = bits16 l := rfl
@[simp] theorem startClassifier_cstate (h l : Int) (s : State) : (startClassifier h l s).cstate = .Safe := rfl
@[simp] theorem startClassifier_cvalid (h l : Int) (s : State) : (startClassifier h l s).cvalid = true := rfl
@[simp] theorem startClassifier_errf (h l : Int) (s : State) : (startClassifier h l s).errf = s.errf := rfl
@[simp] theorem startClassifier_rspq (h l : Int) (s : State) : (startClassifier h l s).rspq = s.rspq := rfl
@[simp] theorem startClassifier_phase (h l : Int) (s : State) : (startClassifier h l s).phase = s.phase := rfl
@[simp] theorem startClassifier_inputs (h l : Int) (s : State) : (startClassifier h l s).inputs = s.inputs := rfl
@[simp] theorem startClassifier_executed (h l : Int) (s : State) : (startClassifier h l s).executed = s.executed := rfl
@[simp] theorem startClassifier_taken (h l : Int) (s : State) : (startClassifier h l s).taken = s.taken := rfl
@[simp] theorem startClassifier_latTick (h l : Int) (s : State) : (startClassifier h l s).latTick = s.latTick := rfl

/-! ## consume (log entry 1) -/

@[simp] theorem consume_fbuf (s : State) : (consume s).fbuf = s.fbuf := rfl
@[simp] theorem consume_fsum (s : State) : (consume s).fsum = s.fsum := rfl
@[simp] theorem consume_fcount (s : State) : (consume s).fcount = s.fcount := rfl
@[simp] theorem consume_fidx (s : State) : (consume s).fidx = s.fidx := rfl
@[simp] theorem consume_chigh (s : State) : (consume s).chigh = s.chigh := rfl
@[simp] theorem consume_clow (s : State) : (consume s).clow = s.clow := rfl
@[simp] theorem consume_cstate (s : State) : (consume s).cstate = s.cstate := rfl
@[simp] theorem consume_cvalid (s : State) : (consume s).cvalid = s.cvalid := rfl
@[simp] theorem consume_errf (s : State) : (consume s).errf = s.errf := rfl
@[simp] theorem consume_rspq (s : State) : (consume s).rspq = s.rspq := rfl
@[simp] theorem consume_phase (s : State) : (consume s).phase = s.phase := rfl
@[simp] theorem consume_inputs (s : State) : (consume s).inputs = s.inputs.tail := rfl
@[simp] theorem consume_executed (s : State) : (consume s).executed = s.executed := rfl
@[simp] theorem consume_taken (s : State) : (consume s).taken = s.taken := rfl
@[simp] theorem consume_latTick (s : State) : (consume s).latTick = s.latTick := rfl

/-! ## accept (R234) -/

@[simp] theorem accept_fbuf (w : CmdWord) (n : Nat) (s : State) : (accept w n s).fbuf = s.fbuf := rfl
@[simp] theorem accept_fsum (w : CmdWord) (n : Nat) (s : State) : (accept w n s).fsum = s.fsum := rfl
@[simp] theorem accept_fcount (w : CmdWord) (n : Nat) (s : State) : (accept w n s).fcount = s.fcount := rfl
@[simp] theorem accept_fidx (w : CmdWord) (n : Nat) (s : State) : (accept w n s).fidx = s.fidx := rfl
@[simp] theorem accept_chigh (w : CmdWord) (n : Nat) (s : State) : (accept w n s).chigh = s.chigh := rfl
@[simp] theorem accept_clow (w : CmdWord) (n : Nat) (s : State) : (accept w n s).clow = s.clow := rfl
@[simp] theorem accept_cstate (w : CmdWord) (n : Nat) (s : State) : (accept w n s).cstate = s.cstate := rfl
@[simp] theorem accept_cvalid (w : CmdWord) (n : Nat) (s : State) : (accept w n s).cvalid = s.cvalid := rfl
@[simp] theorem accept_errf (w : CmdWord) (n : Nat) (s : State) : (accept w n s).errf = s.errf := rfl
@[simp] theorem accept_rspq (w : CmdWord) (n : Nat) (s : State) : (accept w n s).rspq = s.rspq := rfl
@[simp] theorem accept_phase (w : CmdWord) (n : Nat) (s : State) : (accept w n s).phase = .busy w n := rfl
@[simp] theorem accept_inputs (w : CmdWord) (n : Nat) (s : State) : (accept w n s).inputs = s.inputs := rfl
@[simp] theorem accept_executed (w : CmdWord) (n : Nat) (s : State) : (accept w n s).executed = s.executed := rfl
@[simp] theorem accept_taken (w : CmdWord) (n : Nat) (s : State) : (accept w n s).taken = s.taken := rfl
@[simp] theorem accept_latTick (w : CmdWord) (n : Nat) (s : State) : (accept w n s).latTick = s.latTick + 1 := rfl

/-! ## present (R235) -/

@[simp] theorem present_fbuf (w : CmdWord) (s : State) : (present w s).fbuf = s.fbuf := rfl
@[simp] theorem present_fsum (w : CmdWord) (s : State) : (present w s).fsum = s.fsum := rfl
@[simp] theorem present_fcount (w : CmdWord) (s : State) : (present w s).fcount = s.fcount := rfl
@[simp] theorem present_fidx (w : CmdWord) (s : State) : (present w s).fidx = s.fidx := rfl
@[simp] theorem present_chigh (w : CmdWord) (s : State) : (present w s).chigh = s.chigh := rfl
@[simp] theorem present_clow (w : CmdWord) (s : State) : (present w s).clow = s.clow := rfl
@[simp] theorem present_cstate (w : CmdWord) (s : State) : (present w s).cstate = s.cstate := rfl
@[simp] theorem present_cvalid (w : CmdWord) (s : State) : (present w s).cvalid = s.cvalid := rfl
@[simp] theorem present_errf (w : CmdWord) (s : State) : (present w s).errf = s.errf := rfl
@[simp] theorem present_rspq (w : CmdWord) (s : State) : (present w s).rspq = s.rspq := rfl
@[simp] theorem present_phase (w : CmdWord) (s : State) : (present w s).phase = .resp := rfl
@[simp] theorem present_inputs (w : CmdWord) (s : State) : (present w s).inputs = s.inputs := rfl
@[simp] theorem present_executed (w : CmdWord) (s : State) : (present w s).executed = s.executed ++ [w] := rfl
@[simp] theorem present_taken (w : CmdWord) (s : State) : (present w s).taken = s.taken := rfl
@[simp] theorem present_latTick (w : CmdWord) (s : State) : (present w s).latTick = s.latTick := rfl

/-! ## handOff (R236) -/

@[simp] theorem handOff_fbuf (s : State) : (handOff s).fbuf = s.fbuf := rfl
@[simp] theorem handOff_fsum (s : State) : (handOff s).fsum = s.fsum := rfl
@[simp] theorem handOff_fcount (s : State) : (handOff s).fcount = s.fcount := rfl
@[simp] theorem handOff_fidx (s : State) : (handOff s).fidx = s.fidx := rfl
@[simp] theorem handOff_chigh (s : State) : (handOff s).chigh = s.chigh := rfl
@[simp] theorem handOff_clow (s : State) : (handOff s).clow = s.clow := rfl
@[simp] theorem handOff_cstate (s : State) : (handOff s).cstate = s.cstate := rfl
@[simp] theorem handOff_cvalid (s : State) : (handOff s).cvalid = s.cvalid := rfl
@[simp] theorem handOff_errf (s : State) : (handOff s).errf = s.errf := rfl
@[simp] theorem handOff_rspq (s : State) : (handOff s).rspq = s.rspq := rfl
@[simp] theorem handOff_phase (s : State) : (handOff s).phase = .idle := rfl
@[simp] theorem handOff_inputs (s : State) : (handOff s).inputs = s.inputs := rfl
@[simp] theorem handOff_executed (s : State) : (handOff s).executed = s.executed := rfl
@[simp] theorem handOff_taken (s : State) : (handOff s).taken = s.taken ++ [s.rspq] := rfl
@[simp] theorem handOff_latTick (s : State) : (handOff s).latTick = s.latTick := rfl

/-! ## loadWord (log entry 7) -/

@[simp] theorem loadWord_fbuf (w : CmdWord) (s : State) : (loadWord w s).fbuf = s.fbuf := rfl
@[simp] theorem loadWord_fsum (w : CmdWord) (s : State) : (loadWord w s).fsum = s.fsum := rfl
@[simp] theorem loadWord_fcount (w : CmdWord) (s : State) : (loadWord w s).fcount = s.fcount := rfl
@[simp] theorem loadWord_fidx (w : CmdWord) (s : State) : (loadWord w s).fidx = s.fidx := rfl
@[simp] theorem loadWord_chigh (w : CmdWord) (s : State) : (loadWord w s).chigh = s.chigh := rfl
@[simp] theorem loadWord_clow (w : CmdWord) (s : State) : (loadWord w s).clow = s.clow := rfl
@[simp] theorem loadWord_cstate (w : CmdWord) (s : State) : (loadWord w s).cstate = s.cstate := rfl
@[simp] theorem loadWord_cvalid (w : CmdWord) (s : State) : (loadWord w s).cvalid = s.cvalid := rfl
@[simp] theorem loadWord_errf (w : CmdWord) (s : State) : (loadWord w s).errf = s.errf := rfl
@[simp] theorem loadWord_rspq (w : CmdWord) (s : State) : (loadWord w s).rspq = s.rspq := rfl
@[simp] theorem loadWord_phase (w : CmdWord) (s : State) : (loadWord w s).phase = .busy w 0 := rfl
@[simp] theorem loadWord_inputs (w : CmdWord) (s : State) : (loadWord w s).inputs = Pins.quiet :: s.inputs := rfl
@[simp] theorem loadWord_executed (w : CmdWord) (s : State) : (loadWord w s).executed = s.executed := rfl
@[simp] theorem loadWord_taken (w : CmdWord) (s : State) : (loadWord w s).taken = s.taken := rfl
@[simp] theorem loadWord_latTick (w : CmdWord) (s : State) : (loadWord w s).latTick = s.latTick := rfl

/-! ## filterUpdate (R120): what it does not write; Laws/Filter.lean says what it does -/

@[simp] theorem filterUpdate_chigh (x : Int) (s : State) : (filterUpdate x s).chigh = s.chigh := by
  unfold filterUpdate; split <;> rfl
@[simp] theorem filterUpdate_clow (x : Int) (s : State) : (filterUpdate x s).clow = s.clow := by
  unfold filterUpdate; split <;> rfl
@[simp] theorem filterUpdate_cstate (x : Int) (s : State) : (filterUpdate x s).cstate = s.cstate := by
  unfold filterUpdate; split <;> rfl
@[simp] theorem filterUpdate_cvalid (x : Int) (s : State) : (filterUpdate x s).cvalid = s.cvalid := by
  unfold filterUpdate; split <;> rfl
@[simp] theorem filterUpdate_errf (x : Int) (s : State) : (filterUpdate x s).errf = s.errf := by
  unfold filterUpdate; split <;> rfl
@[simp] theorem filterUpdate_rspq (x : Int) (s : State) : (filterUpdate x s).rspq = s.rspq := by
  unfold filterUpdate; split <;> rfl
@[simp] theorem filterUpdate_phase (x : Int) (s : State) : (filterUpdate x s).phase = s.phase := by
  unfold filterUpdate; split <;> rfl
@[simp] theorem filterUpdate_inputs (x : Int) (s : State) : (filterUpdate x s).inputs = s.inputs := by
  unfold filterUpdate; split <;> rfl
@[simp] theorem filterUpdate_executed (x : Int) (s : State) : (filterUpdate x s).executed = s.executed := by
  unfold filterUpdate; split <;> rfl
@[simp] theorem filterUpdate_taken (x : Int) (s : State) : (filterUpdate x s).taken = s.taken := by
  unfold filterUpdate; split <;> rfl
@[simp] theorem filterUpdate_latTick (x : Int) (s : State) : (filterUpdate x s).latTick = s.latTick := by
  unfold filterUpdate; split <;> rfl

/-! ## classifyWhenReady (R160): CSTATE alone can change -/

@[simp] theorem classifyWhenReady_fbuf (s : State) : (classifyWhenReady s).fbuf = s.fbuf := by
  unfold classifyWhenReady; split <;> rfl
@[simp] theorem classifyWhenReady_fsum (s : State) : (classifyWhenReady s).fsum = s.fsum := by
  unfold classifyWhenReady; split <;> rfl
@[simp] theorem classifyWhenReady_fcount (s : State) : (classifyWhenReady s).fcount = s.fcount := by
  unfold classifyWhenReady; split <;> rfl
@[simp] theorem classifyWhenReady_fidx (s : State) : (classifyWhenReady s).fidx = s.fidx := by
  unfold classifyWhenReady; split <;> rfl
@[simp] theorem classifyWhenReady_chigh (s : State) : (classifyWhenReady s).chigh = s.chigh := by
  unfold classifyWhenReady; split <;> rfl
@[simp] theorem classifyWhenReady_clow (s : State) : (classifyWhenReady s).clow = s.clow := by
  unfold classifyWhenReady; split <;> rfl
@[simp] theorem classifyWhenReady_cvalid (s : State) : (classifyWhenReady s).cvalid = s.cvalid := by
  unfold classifyWhenReady; split <;> rfl
@[simp] theorem classifyWhenReady_errf (s : State) : (classifyWhenReady s).errf = s.errf := by
  unfold classifyWhenReady; split <;> rfl
@[simp] theorem classifyWhenReady_rspq (s : State) : (classifyWhenReady s).rspq = s.rspq := by
  unfold classifyWhenReady; split <;> rfl
@[simp] theorem classifyWhenReady_phase (s : State) : (classifyWhenReady s).phase = s.phase := by
  unfold classifyWhenReady; split <;> rfl
@[simp] theorem classifyWhenReady_inputs (s : State) : (classifyWhenReady s).inputs = s.inputs := by
  unfold classifyWhenReady; split <;> rfl
@[simp] theorem classifyWhenReady_executed (s : State) : (classifyWhenReady s).executed = s.executed := by
  unfold classifyWhenReady; split <;> rfl
@[simp] theorem classifyWhenReady_taken (s : State) : (classifyWhenReady s).taken = s.taken := by
  unfold classifyWhenReady; split <;> rfl
@[simp] theorem classifyWhenReady_latTick (s : State) : (classifyWhenReady s).latTick = s.latTick := by
  unfold classifyWhenReady; split <;> rfl

end Sys2Proof.Machine
end

