-- ==== Sys2Proof/Laws/Response.lean ====
section
/-! SUPPORT. The fields of a response word (30_encoding.md R76), one lemma each, and the fields' one-bit and ERRF helpers. -/

namespace Sys2Proof.Machine

variable (st : Status) (rdy : Bool) (c : CState) (d1 d0 : Int)

/-- Bits [39:36] of a concatenation of response shape. -/
theorem field_status (a : BitVec 4) (b c : BitVec 1) (d : BitVec 2) (e f : BitVec 16) :
    (a ++ (b ++ (c ++ (d ++ (e ++ f)))) : BitVec 40).extractLsb' 36 4 = a := by
  apply BitVec.eq_of_getLsbD_eq
  intro i hi
  have out : ¬ (36 + i < 1 + (1 + (2 + (16 + 16)))) := by omega
  have at36 : 36 + i - (1 + (1 + (2 + (16 + 16)))) = i := by omega
  simp only [BitVec.getLsbD_extractLsb', BitVec.getLsbD_append, out, at36, hi, if_false, decide_true, Bool.true_and]

/-- Bit [35]. -/
theorem field_ready (a : BitVec 4) (b c : BitVec 1) (d : BitVec 2) (e f : BitVec 16) :
    (a ++ (b ++ (c ++ (d ++ (e ++ f)))) : BitVec 40).extractLsb' 35 1 = b := by
  apply BitVec.eq_of_getLsbD_eq
  intro i hi
  obtain rfl : i = 0 := by omega
  simp only [BitVec.getLsbD_extractLsb', BitVec.getLsbD_append]
  simp

/-- Bit [34]. -/
theorem field_state (a : BitVec 4) (b c : BitVec 1) (d : BitVec 2) (e f : BitVec 16) :
    (a ++ (b ++ (c ++ (d ++ (e ++ f)))) : BitVec 40).extractLsb' 34 1 = c := by
  apply BitVec.eq_of_getLsbD_eq
  intro i hi
  obtain rfl : i = 0 := by omega
  simp only [BitVec.getLsbD_extractLsb', BitVec.getLsbD_append]
  simp

/-- Bits [33:32]. -/
theorem field_rsv (a : BitVec 4) (b c : BitVec 1) (d : BitVec 2) (e f : BitVec 16) :
    (a ++ (b ++ (c ++ (d ++ (e ++ f)))) : BitVec 40).extractLsb' 32 2 = d := by
  apply BitVec.eq_of_getLsbD_eq
  intro i hi
  have l1 : 32 + i < 1 + (1 + (2 + (16 + 16))) := by omega
  have l2 : 32 + i < 1 + (2 + (16 + 16)) := by omega
  have l3 : 32 + i < 2 + (16 + 16) := by omega
  have out : ¬ (32 + i < 16 + 16) := by omega
  have at32 : 32 + i - (16 + 16) = i := by omega
  simp only [BitVec.getLsbD_extractLsb', BitVec.getLsbD_append, l1, l2, l3, out, at32, hi, if_true, if_false, decide_true,
    Bool.true_and]

/-- Bits [31:16]. -/
theorem field_d1 (a : BitVec 4) (b c : BitVec 1) (d : BitVec 2) (e f : BitVec 16) :
    (a ++ (b ++ (c ++ (d ++ (e ++ f)))) : BitVec 40).extractLsb' 16 16 = e := by
  apply BitVec.eq_of_getLsbD_eq
  intro i hi
  have l1 : 16 + i < 1 + (1 + (2 + (16 + 16))) := by omega
  have l2 : 16 + i < 1 + (2 + (16 + 16)) := by omega
  have l3 : 16 + i < 2 + (16 + 16) := by omega
  have l4 : 16 + i < 16 + 16 := by omega
  have out : ¬ (16 + i < 16) := by omega
  have at16 : 16 + i - 16 = i := by omega
  simp only [BitVec.getLsbD_extractLsb', BitVec.getLsbD_append, l1, l2, l3, l4, out, at16, hi, if_true, if_false, decide_true,
    Bool.true_and]

/-- Bits [15:0]. -/
theorem field_d0 (a : BitVec 4) (b c : BitVec 1) (d : BitVec 2) (e f : BitVec 16) :
    (a ++ (b ++ (c ++ (d ++ (e ++ f)))) : BitVec 40).extractLsb' 0 16 = f := by
  apply BitVec.eq_of_getLsbD_eq
  intro i hi
  have l1 : i < 1 + (1 + (2 + (16 + 16))) := by omega
  have l2 : i < 1 + (2 + (16 + 16)) := by omega
  have l3 : i < 2 + (16 + 16) := by omega
  have l4 : i < 16 + 16 := by omega
  simp only [BitVec.getLsbD_extractLsb', BitVec.getLsbD_append, l1, l2, l3, l4, hi, if_true, decide_true,
    Bool.true_and, Nat.zero_add]

@[simp] theorem rspStatus_responseWord : rspStatus (responseWord st rdy c d1 d0) = BitVec.ofNat 4 st.code := field_status ..
@[simp] theorem rspReadyFlag_responseWord : rspReadyFlag (responseWord st rdy c d1 d0) = flagBit rdy := field_ready ..
@[simp] theorem rspStateFlag_responseWord : rspStateFlag (responseWord st rdy c d1 d0) = c.bit := field_state ..
@[simp] theorem rspRsv_responseWord : rspRsv (responseWord st rdy c d1 d0) = 0#2 := field_rsv ..
@[simp] theorem rspD1_responseWord : rspD1 (responseWord st rdy c d1 d0) = bits16 d1 := field_d1 ..
@[simp] theorem rspD0_responseWord : rspD0 (responseWord st rdy c d1 d0) = bits16 d0 := field_d0 ..

@[simp] theorem flagBit_true : flagBit true = 1#1 := rfl
@[simp] theorem flagBit_false : flagBit false = 0#1 := rfl
@[simp] theorem code_ok : Status.ok.code = 0 := rfl
@[simp] theorem bits16_zero : bits16 0 = 0#16 := rfl

/-- Every status fits its field and is at most 5 (R201). -/
theorem code_le_five : st.code ≤ 5 := by
  cases st with
  | ok => decide
  | err e => cases e <;> decide

/-- A raised error's status is not OK (R201). -/
theorem error_status_ne_zero (e : ErrorKind) : BitVec.ofNat 4 (Status.err e).code ≠ 0#4 := by cases e <;> decide

end Sys2Proof.Machine
end

