-- ==== Sys2Proof/Laws/Filter.lean ====
section
/-! SUPPORT. What the ring buffer's accessors and the filter update do (41_filter.md R120 to R125), said once. -/

namespace Sys2Proof.Machine

/-- Read after write of a slot: the written one has the value, every other is as before. -/
theorem get_set (b : SampleRing) (i j : Fin 5) (v : BitVec 16) : (b.set i v).get j = if j = i then v else b.get j := by
  rcases b with ⟨_, _, _, _, _⟩
  match i, j with
  | 0, 0 | 0, 1 | 0, 2 | 0, 3 | 0, 4 | 1, 0 | 1, 1 | 1, 2 | 1, 3 | 1, 4 | 2, 0 | 2, 1 | 2, 2 | 2, 3 | 2, 4
  | 3, 0 | 3, 1 | 3, 2 | 3, 3 | 3, 4 | 4, 0 | 4, 1 | 4, 2 | 4, 3 | 4, 4 => rfl

@[simp] theorem get_zero (i : Fin 5) : SampleRing.zero.get i = 0#16 := by
  match i with
  | 0 | 1 | 2 | 3 | 4 => rfl

@[simp] theorem nextIndex_val (i : Fin 5) : (nextIndex i).val = (i.val + 1) % 5 := rfl

/-- The update writes the sample at the write position and nowhere else (R121, R122). -/
theorem filterUpdate_get (x : Int) (s : State) (i : Fin 5) :
    (filterUpdate x s).fbuf.get i = if i = s.fidx then bits16 x else s.fbuf.get i := by
  rw [← get_set]
  unfold filterUpdate
  split <;> rfl

theorem filterUpdate_fbuf (x : Int) (s : State) : (filterUpdate x s).fbuf = s.fbuf.set s.fidx (bits16 x) := by
  unfold filterUpdate
  split <;> rfl

/-- The write position advances circularly in both branches (R121, R122). -/
@[simp] theorem filterUpdate_fidx (x : Int) (s : State) : (filterUpdate x s).fidx = nextIndex s.fidx := by
  unfold filterUpdate
  split <;> rfl

/-- FCOUNT counts up to 5 and stays there (R25). -/
theorem filterUpdate_fcount (x : Int) (s : State) : (filterUpdate x s).fcount.val = min (s.fcount.val + 1) 5 := by
  have := s.fcount.isLt
  unfold filterUpdate
  split
  · rename_i h
    simp only [filtN] at h
    simp only [warmUpUpdate]
    omega
  · rename_i h
    simp only [filtN] at h
    simp only [steadyUpdate]
    omega

/-- Warm-up adds the sample to the sum (R121). -/
theorem filterUpdate_fsum_warm (x : Int) (s : State) (h : s.fcount.val < 5) :
    (filterUpdate x s).fsum = s.fsum + BitVec.ofInt 32 x := by
  rw [← bits32_sext32_add]
  unfold filterUpdate
  rw [dif_pos (show s.fcount.val < filtN from h)]
  rfl

/-- Steady state takes the evicted sample out of the sum and adds the new one (R122). -/
theorem filterUpdate_fsum_steady (x : Int) (s : State) (h : s.fcount.val = 5) :
    (filterUpdate x s).fsum = s.fsum - (s.fbuf.get s.fidx).signExtend 32 + BitVec.ofInt 32 x := by
  have evict : bits32 (sext32 s.fsum - sext16 (s.fbuf.get s.fidx)) = s.fsum - (s.fbuf.get s.fidx).signExtend 32 := by
    rw [Int.sub_eq_add_neg, bits32_sext32_add, BitVec.sub_eq_add_neg, BitVec.ofInt_neg]
    rfl
  have no : ¬ s.fcount.val < filtN := by simp [filtN, h]
  unfold filterUpdate
  rw [dif_neg no, ← evict, ← bits32_sext32_add]
  rfl

theorem filterReady_iff (s : State) : filterReady s = true ↔ s.fcount.val = 5 := by simp [filterReady, filtN]

theorem smoothed_ready {s : State} (h : s.fcount.val = 5) : smoothed s = some (tdiv s.fsum.toInt 5) := by
  simp [smoothed, (filterReady_iff s).2 h, sext32, filtN]

theorem smoothed_warm {s : State} (h : s.fcount.val ≠ 5) : smoothed s = none := by
  have : filterReady s = false := by
    rw [← Bool.not_eq_true, filterReady_iff]
    exact h
  simp [smoothed, this]

end Sys2Proof.Machine
end

