-- ==== Sys2Proof/Laws/Classifier.lean ====
section
/-! SUPPORT. What the classification step and the pipeline's gate can do, said once (42_classifier.md R140; 43 R160). -/

namespace Sys2Proof.Machine

/-- The step depends on CSTATE and the thresholds alone. -/
theorem classifyNext_congr {s t : State} (v : Int) (hc : t.cstate = s.cstate) (hh : t.chigh = s.chigh) (hl : t.clow = s.clow) :
    classifyNext v t = classifyNext v s := by
  simp only [classifyNext, hc, hh, hl]

theorem classifyNext_of_safe {s : State} (v : Int) (h : s.cstate = .Safe) :
    (s.chigh.toInt ≤ v → classifyNext v s = .Unsafe) ∧ (v < s.chigh.toInt → classifyNext v s = .Safe) := by
  simp only [classifyNext, h]
  exact ⟨fun le => if_pos le, fun lt => if_neg (Int.not_le.mpr lt)⟩

theorem classifyNext_of_unsafe {s : State} (v : Int) (h : s.cstate = .Unsafe) :
    (v ≤ s.clow.toInt → classifyNext v s = .Safe) ∧ (s.clow.toInt < v → classifyNext v s = .Unsafe) := by
  simp only [classifyNext, h]
  exact ⟨fun le => if_pos le, fun lt => if_neg (Int.not_le.mpr lt)⟩

/-- The gate: the classifier runs on the smoothed value when FCOUNT = 5, and not otherwise (R160). -/
theorem classifyWhenReady_cases (s : State) :
    (s.fcount.val = 5 ∧ classifyWhenReady s = classify (tdiv s.fsum.toInt 5) s) ∨
    (s.fcount.val ≠ 5 ∧ classifyWhenReady s = s) := by
  by_cases h : s.fcount.val = 5
  · exact .inl ⟨h, by simp [classifyWhenReady, smoothed_ready h]⟩
  · exact .inr ⟨h, by simp [classifyWhenReady, smoothed_warm h]⟩

end Sys2Proof.Machine
end

