-- ==== Sys2Proof/Laws/Decode.lean ====
section
/-! SUPPORT. What the decoder can answer, said once (30_encoding.md R73, R74, R80). -/

namespace Sys2Proof

open Sys2Proof.Machine

/-- The nine rows of the opcode map. -/
theorem decodeWord_cases (w : CmdWord) :
    (opField w = 0x00#8 ∧ decodeWord w = .ok .nop) ∨
    (opField w = 0x01#8 ∧ decodeWord w = .ok (.conv (unsignedA w))) ∨
    (opField w = 0x02#8 ∧ decodeWord w = .ok (.fupd (signedA w))) ∨
    (opField w = 0x03#8 ∧ decodeWord w = .ok .frst) ∨
    (opField w = 0x04#8 ∧ decodeWord w = .ok (.cinit (signedA w) (signedB w))) ∨
    (opField w = 0x05#8 ∧ decodeWord w = .ok (.ceval (signedA w))) ∨
    (opField w = 0x06#8 ∧ decodeWord w = .ok (.proc (unsignedA w))) ∨
    (opField w = 0x07#8 ∧ decodeWord w = .ok (.rdreg (unsignedA w))) ∨
    (0x08 ≤ (opField w).toNat ∧ decodeWord w = .error (.illegalOp (opField w))) := by
  have eq (n : Nat) (h : (opField w).toNat = n) (lt : n < 2 ^ 8) : opField w = BitVec.ofNat 8 n := by
    apply BitVec.eq_of_toNat_eq
    rw [h, BitVec.toNat_ofNat, Nat.mod_eq_of_lt lt]
  have nine : (opField w).toNat = 0 ∨ (opField w).toNat = 1 ∨ (opField w).toNat = 2 ∨ (opField w).toNat = 3 ∨
      (opField w).toNat = 4 ∨ (opField w).toNat = 5 ∨ (opField w).toNat = 6 ∨ (opField w).toNat = 7 ∨ 8 ≤ (opField w).toNat := by
    omega
  unfold decodeWord
  rcases nine with h | h | h | h | h | h | h | h | h
  · exact .inl ⟨eq 0 h (by decide), by simp only [h]⟩
  · exact .inr (.inl ⟨eq 1 h (by decide), by simp only [h]⟩)
  · exact .inr (.inr (.inl ⟨eq 2 h (by decide), by simp only [h]⟩))
  · exact .inr (.inr (.inr (.inl ⟨eq 3 h (by decide), by simp only [h]⟩)))
  · exact .inr (.inr (.inr (.inr (.inl ⟨eq 4 h (by decide), by simp only [h]⟩))))
  · exact .inr (.inr (.inr (.inr (.inr (.inl ⟨eq 5 h (by decide), by simp only [h]⟩)))))
  · exact .inr (.inr (.inr (.inr (.inr (.inr (.inl ⟨eq 6 h (by decide), by simp only [h]⟩))))))
  · exact .inr (.inr (.inr (.inr (.inr (.inr (.inr (.inl ⟨eq 7 h (by decide), by simp only [h]⟩)))))))
  · refine .inr (.inr (.inr (.inr (.inr (.inr (.inr (.inr ⟨h, ?_⟩)))))))
    generalize (opField w).toNat = n at h
    match n, h with
    | n + 8, _ => rfl

/-- Every decoded operand lies in its field's range (R72). -/
theorem decodeWord_wellFormed {w : CmdWord} {i : Instr} (h : decodeWord w = .ok i) : i.wellFormed = true := by
  have unsignedOk : inUnsigned16 (unsignedA w) = true :=
    decide_eq_true (Nat.le_of_lt_succ (aField w).isLt)
  have signedOk (v : BitVec 16) : inSigned16 (sext16 v) = true := by
    have := sext16_bounds v
    simp [inSigned16, this]
  rcases decodeWord_cases w with ⟨-, e⟩ | ⟨-, e⟩ | ⟨-, e⟩ | ⟨-, e⟩ | ⟨-, e⟩ | ⟨-, e⟩ | ⟨-, e⟩ | ⟨-, e⟩ | ⟨-, e⟩ <;>
    rw [e] at h <;> cases h <;> simp [Instr.wellFormed, unsignedOk, signedOk, signedA, signedB]

end Sys2Proof
end

