-- ==== Sys2Proof/Laws/Handshake.lean ====
section
/-! SUPPORT. What a command and an edge can do, said once: every command answers a next state that keeps the host side and
the handshake, and an edge is one of six moves (70_reset_and_hazards.md R231, R234 to R236). -/

namespace Sys2Proof.Machine

/-- `t` has the same handshake and host side as `s`. -/
def SameHostSide (s t : State) : Prop :=
  t.phase = s.phase ∧ t.inputs = s.inputs ∧ t.executed = s.executed ∧ t.taken = s.taken ∧ t.latTick = s.latTick

/-- Every command answers a next state and leaves the handshake and the host side alone (R53, R80). -/
theorem exec_next (i : Instr) (s : State) : ∃ t, exec i s = .next t ∧ SameHostSide s t := by
  cases i with
  | nop => exact ⟨_, rfl, by simp [SameHostSide]⟩
  | conv raw => exact ⟨_, rfl, by simp [SameHostSide]⟩
  | fupd x => exact ⟨_, rfl, by simp [SameHostSide]⟩
  | frst => exact ⟨_, rfl, by simp [SameHostSide]⟩
  | cinit high low =>
    simp only [exec, execCinit]
    split
    · exact ⟨_, rfl, by simp [SameHostSide]⟩
    · split <;> exact ⟨_, rfl, by simp [SameHostSide]⟩
  | ceval v =>
    simp only [exec, execCeval]
    split <;> exact ⟨_, rfl, by simp [SameHostSide]⟩
  | proc raw =>
    simp only [exec, execProc]
    split <;> exact ⟨_, rfl, by simp [SameHostSide]⟩
  | rdreg index =>
    simp only [exec, execRdreg]
    split <;> exact ⟨_, rfl, by simp [SameHostSide]⟩

/-- What a word runs: the command it decodes to, or ERR_ILLEGAL (R80). -/
theorem runWord_cases (w : CmdWord) (s : State) :
    (∃ i, decodeWord w = .ok i ∧ runWord w s = exec i s) ∨
    (∃ e, decodeWord w = .error e ∧ runWord w s = .next (raiseError .illegal s)) := by
  unfold runWord
  cases h : decodeWord w with
  | ok i => exact .inl ⟨i, rfl, rfl⟩
  | error e => exact .inr ⟨e, rfl, rfl⟩

theorem runWord_next (w : CmdWord) (s : State) : ∃ t, runWord w s = .next t ∧ SameHostSide s t := by
  rcases runWord_cases w s with ⟨i, -, h⟩ | ⟨e, -, h⟩
  · rw [h]
    exact exec_next i s
  · exact ⟨_, h, by simp [SameHostSide]⟩

theorem execute_next {w : CmdWord} {s t : State} (h : runWord w s = .next t) : execute w s = .next (present w t) := by
  simp [execute, h]

/-- The six moves of an edge: reset, acceptance, waiting, execution, hand-off, and an edge at which the host makes no move. -/
theorem step_cases (s : State) :
    ((pinsNow s).rst = true ∧ step s = .next (blockReset (consume s))) ∨
    ((pinsNow s).rst = false ∧
      ((s.phase = .idle ∧ (pinsNow s).cmdValid = true ∧
          step s = .next (accept (pinsNow s).cmdWord (Config.latExtra s.latTick) (consume s))) ∨
       (∃ w n, s.phase = .busy w (n + 1) ∧ step s = .next { consume s with phase := .busy w n }) ∨
       (∃ w t, s.phase = .busy w 0 ∧ runWord w (consume s) = .next t ∧ SameHostSide (consume s) t ∧
          step s = .next (present w t)) ∨
       (s.phase = .resp ∧ (pinsNow s).rspReady = true ∧ step s = .next (handOff (consume s))) ∨
       (((s.phase = .idle ∧ (pinsNow s).cmdValid = false) ∨ (s.phase = .resp ∧ (pinsNow s).rspReady = false)) ∧
          step s = .next (consume s)))) := by
  unfold step clockEdge
  cases hr : (pinsNow s).rst with
  | true => exact .inl ⟨rfl, by simp⟩
  | false =>
    refine .inr ⟨rfl, ?_⟩
    simp only [consume_phase, Bool.false_eq_true, if_false]
    cases hp : s.phase with
    | idle =>
      cases hv : (pinsNow s).cmdValid with
      | true => exact .inl ⟨rfl, rfl, by simp⟩
      | false => exact .inr (.inr (.inr (.inr ⟨.inl ⟨rfl, rfl⟩, by simp⟩)))
    | busy w n =>
      cases n with
      | zero =>
        obtain ⟨t, ht, same⟩ := runWord_next w (consume s)
        exact .inr (.inr (.inl ⟨w, t, rfl, ht, same, execute_next ht⟩))
      | succ n => exact .inr (.inl ⟨w, n, rfl, rfl⟩)
    | resp =>
      cases hv : (pinsNow s).rspReady with
      | true => exact .inr (.inr (.inr (.inl ⟨rfl, rfl, by simp⟩)))
      | false => exact .inr (.inr (.inr (.inr ⟨.inr ⟨rfl, rfl⟩, by simp⟩)))

end Sys2Proof.Machine
end

