-- ==== Sys2Proof/Laws/PerInstr.lean ====
section
/-! SUPPORT. Statements about every command as syntax, one lemma per constructor. -/

namespace Sys2Proof.Laws

open Sys2Proof.Machine

/-- The encoded word's OP is the opcode map's value, and the bits its operation does not use are 0 (R73, R75, R78). -/
def EncodesUsedFieldsOnly.Statement (i : Instr) : Prop :=
  opField (encode i) = opcode i ∧ encode i &&& usedBits (opcode i) = encode i

theorem EncodesUsedFieldsOnly.nop : EncodesUsedFieldsOnly.Statement .nop := by
  unfold EncodesUsedFieldsOnly.Statement
  decide

theorem and_low (op : BitVec 8) (a : BitVec 16) : cmdWord op 0#16 a &&& 0xFF0000FFFF#40 = cmdWord op 0#16 a := by
  have split : (0xFF0000FFFF#40 : BitVec 40) = 0xFF#8 ++ (0x0000#16 ++ 0xFFFF#16) := by decide
  have ones8 : op &&& 0xFF#8 = op := BitVec.and_allOnes
  have ones16 : a &&& 0xFFFF#16 = a := BitVec.and_allOnes
  rw [split, cmdWord, BitVec.and_append, BitVec.and_append, ones8, ones16]
  simp

theorem EncodesUsedFieldsOnly.conv (raw : Nat) : EncodesUsedFieldsOnly.Statement (.conv raw) :=
  ⟨by simp [encode], and_low ..⟩

theorem EncodesUsedFieldsOnly.fupd (sample : Int) : EncodesUsedFieldsOnly.Statement (.fupd sample) :=
  ⟨by simp [encode], and_low ..⟩

theorem EncodesUsedFieldsOnly.frst : EncodesUsedFieldsOnly.Statement .frst := by
  unfold EncodesUsedFieldsOnly.Statement
  decide

theorem EncodesUsedFieldsOnly.cinit (high low : Int) : EncodesUsedFieldsOnly.Statement (.cinit high low) :=
  ⟨by simp [encode], BitVec.and_allOnes⟩

theorem EncodesUsedFieldsOnly.ceval (value : Int) : EncodesUsedFieldsOnly.Statement (.ceval value) :=
  ⟨by simp [encode], and_low ..⟩

theorem EncodesUsedFieldsOnly.proc (raw : Nat) : EncodesUsedFieldsOnly.Statement (.proc raw) :=
  ⟨by simp [encode], and_low ..⟩

theorem EncodesUsedFieldsOnly.rdreg (index : Nat) : EncodesUsedFieldsOnly.Statement (.rdreg index) :=
  ⟨by simp [encode], and_low ..⟩

end Sys2Proof.Laws
end

