-- ==== Sys2Proof/Laws/Run.lean ====
section
/-! SUPPORT. Runs of edges: one edge more, and a run cut in two. -/

namespace Sys2Proof.Machine

/-- The first edge of a run. -/
theorem run_succ {s t : State} (n : Nat) (h : step s = .next t) : Host.Core.run core (n + 1) s = Host.Core.run core n t := by
  have first : core.step s = .next t := h
  simp only [Host.Core.run, first]

/-- A run of `m + n` edges is a run of `m` and then one of `n`. -/
theorem run_add (m n : Nat) {s t : State} (h : Host.Core.run core m s = .next t) :
    Host.Core.run core (m + n) s = Host.Core.run core n t := by
  induction m generalizing s with
  | zero =>
    cases h
    rw [Nat.zero_add]
  | succ m ih =>
    rw [Nat.add_right_comm]
    simp only [Host.Core.run] at *
    cases first : core.step s with
    | next u =>
      rw [first] at h
      exact ih h
    | fault r => exact nomatch r
    | refused r =>
      rw [first] at h
      cases h

end Sys2Proof.Machine
end

