-- ==== Sys2Proof/Tests/Slice0.lean ====
section
/-! SUPPORT. Tests. Expected values are those of spec/95_test_vectors.md and of the rules' worked examples, named beside
each; then one witness for each statement with hypotheses. -/

namespace Sys2Proof.Tests

open Sys2Proof.Machine

/-! ## Helpers -/

/-- RSPQ of a next state. -/
def rspOf : Host.Outcome State Fault Refusal → Option RspWord
  | .next t => some t.rspq
  | .fault _ => none
  | .refused _ => none

/-- One field of a next state. -/
def fieldOf {α : Type} (f : State → α) : Host.Outcome State Fault Refusal → Option α
  | .next t => some (f t)
  | .fault _ => none
  | .refused _ => none

/-- The response of one word executed by the next step. -/
def runOne (w : Nat) (s : State) : Option RspWord := rspOf (step (s.withFetchWord 40 w))

/-- One field after one word executed by the next step. -/
def after {α : Type} (f : State → α) (w : Nat) (s : State) : Option α := fieldOf f (step (s.withFetchWord 40 w))

/-- After `CINIT 1000, 950`, in the given CSTATE. -/
def started (c : CState) : State := { State.reset with chigh := 1000#16, clow := 950#16, cvalid := true, cstate := c }

/-- The filter of V-S5 after its row 4. -/
def fourSamples : State :=
  { State.reset with fbuf := { slot0 := 500#16, slot1 := 600#16, slot2 := 450#16, slot3 := 550#16, slot4 := 0#16 }
                     fsum := 2100#32, fcount := 4, fidx := 4 }

/-- The filter of V-S5 after its row 5. -/
def fiveSamples : State :=
  { State.reset with fbuf := { slot0 := 500#16, slot1 := 600#16, slot2 := 450#16, slot3 := 550#16, slot4 := 500#16 }
                     fsum := 2600#32, fcount := 5, fidx := 0 }

/-- P1 after its step 5: four samples of 1010, thresholds 1000 and 950. -/
def fourPipelined : State :=
  { started .Safe with fbuf := { slot0 := 1010#16, slot1 := 1010#16, slot2 := 1010#16, slot3 := 1010#16, slot4 := 0#16 }
                       fsum := 4040#32, fcount := 4, fidx := 4 }

/-- P1 after its step 6. -/
def fivePipelined : State :=
  { started .Unsafe with fbuf := { slot0 := 1010#16, slot1 := 1010#16, slot2 := 1010#16, slot3 := 1010#16, slot4 := 1010#16 }
                         fsum := 5050#32, fcount := 5, fidx := 0 }

/-! ## Well-formedness: each check refuses an ill-formed term (R72, R78) -/

theorem test_conv_above_range : (Instr.conv 65536).wellFormed = false := by decide
theorem test_proc_above_range : (Instr.proc 65536).wellFormed = false := by decide
theorem test_rdreg_above_range : (Instr.rdreg 65536).wellFormed = false := by decide
theorem test_fupd_above_range : (Instr.fupd 32768).wellFormed = false := by decide
theorem test_fupd_below_range : (Instr.fupd (-32769)).wellFormed = false := by decide
theorem test_cinit_high_range : (Instr.cinit 32768 0).wellFormed = false := by decide
theorem test_cinit_low_range : (Instr.cinit 0 (-32769)).wellFormed = false := by decide
theorem test_ceval_range : (Instr.ceval 40000).wellFormed = false := by decide

/-! ## Decoding words written out as OP, B, A (R70, R73), and the encoder's word (R79) -/

theorem test_decode_nop : decodeWord (0b00000000#8 ++ (0x1234#16 ++ 0x5678#16)) = .ok .nop := by decide
theorem test_decode_conv : decodeWord (0b00000001#8 ++ (0xFFFF#16 ++ 0b0000100000000000#16)) = .ok (.conv 2048) := by decide
theorem test_decode_fupd : decodeWord (0b00000010#8 ++ (0x0000#16 ++ 0b1111111111111110#16)) = .ok (.fupd (-2)) := by decide
theorem test_decode_frst : decodeWord (0b00000011#8 ++ (0x0001#16 ++ 0x0001#16)) = .ok .frst := by decide
theorem test_decode_cinit : decodeWord (0b00000100#8 ++ (0xFFF6#16 ++ 0xFFFB#16)) = .ok (.cinit (-5) (-10)) := by decide
theorem test_decode_ceval : decodeWord (0b00000101#8 ++ (0x0000#16 ++ 0x8000#16)) = .ok (.ceval (-32768)) := by decide
theorem test_decode_proc : decodeWord (0b00000110#8 ++ (0x0000#16 ++ 0xFFFF#16)) = .ok (.proc 65535) := by decide
theorem test_decode_rdreg : decodeWord (0b00000111#8 ++ (0x0000#16 ++ 0xFFFF#16)) = .ok (.rdreg 65535) := by decide
theorem test_decode_illegal : decodeWord 0x0800000000#40 = .error (.illegalOp 0x08#8) := by decide
theorem test_decode_short : decodeBytes [0x00#8, 0x00#8] = .error (.notFiveBytes 2) := by decide
theorem test_encode_cinit : encode (.cinit 1000 950) = 0x0403B603E8#40 := by decide
theorem test_table_word : decodeTableWord 40 0x0403B603E8 = some (.cinit 1000 950) := by decide
theorem test_bytes_low_first : bytesOfWord 0x0403B603E8#40 = [0xE8#8, 0x03#8, 0xB6#8, 0x03#8, 0x04#8] := by decide

/-! ## One step each -/

/-- R162's worked example: NOP in state Unsafe. -/
theorem test_nop_unsafe : runOne 0x0000000000 (started .Unsafe) = some 0x0400000000#40 := by decide
/-- V-S1. -/
theorem test_conv_zero : runOne 0x0100000000 State.reset = some 0x000000FE70#40 := by decide
/-- V-C: saturation, B ignored by the row above it. -/
theorem test_conv_saturates : runOne 0x010000FFFF State.reset = some 0x00000004E2#40 := by decide
/-- V-S5 row 5, V-F1: the 5th sample is a warm-up update and ready. -/
theorem test_fupd_fifth : runOne 0x02000001F4 fourSamples = some 0x0800000208#40 := by decide
/-- V-S5 row 6: the 6th sample evicts FBUF[0]. -/
theorem test_fupd_sixth_sum : after (·.fsum) 0x02000001E0 fiveSamples = some 2580#32 := by decide
/-- R127: the filter registers only. -/
theorem test_frst_clears : after (fun t => (t.fbuf, t.fsum, t.cstate)) 0x0300000000 fivePipelined =
    some (SampleRing.zero, 0#32, .Unsafe) := by decide
/-- V-P2 row 9: FRST keeps CSTATE. -/
theorem test_frst_response : runOne 0x0300000000 fivePipelined = some 0x0400000000#40 := by decide
/-- R142's worked example. -/
theorem test_cinit_thresholds : after (fun t => (t.chigh, t.clow, t.cvalid)) 0x0403B603E8 State.reset =
    some (1000#16, 950#16, true) := by decide
/-- P3 step 12: ERR_REINIT wins over ERR_THRESH. -/
theorem test_cinit_priority : runOne 0x0403B60384 (started .Safe) = some 0x5000000000#40 := by decide
/-- V-K1: 1000 ≥ 1000. -/
theorem test_ceval_inclusive : runOne 0x05000003E8 (started .Safe) = some 0x0400000000#40 := by decide
/-- V-K3: ERR_UNINIT and ERRF bit 2. -/
theorem test_ceval_uninit : after (fun t => (t.rspq, t.errf)) 0x0500000001 State.reset = some (0x3000000000#40, 0x04#5) := by decide
/-- P1 step 6: ready, Unsafe. -/
theorem test_proc_fifth : runOne 0x0600000DAC fourPipelined = some 0x0C03F203F2#40 := by decide
/-- P1 step 7: 994, still Unsafe. -/
theorem test_proc_sixth : runOne 0x0600000CE4 fivePipelined = some 0x0C03E203A2#40 := by decide
/-- V-R: CLOW = -10 is read sign-extended. -/
theorem test_rdreg_sign_extends : runOne 0x0700000009 { State.reset with clow := 0xFFF6#16 } = some 0x00FFFFFFF6#40 := by decide
/-- V-R: the first index that names nothing. -/
theorem test_rdreg_twelve : runOne 0x070000000C State.reset = some 0x4000000000#40 := by decide
/-- V-N: an illegal word. -/
theorem test_illegal_word : after (fun t => (t.rspq, t.errf)) 0xFFFFFFFFFF State.reset = some (0x1000000000#40, 0x01#5) := by decide
/-- V-F2: the sum -6 gives -1. -/
theorem test_tdiv_toward_zero : tdiv (-6) 5 = -1 := by decide

/-! ## The handshake trace of Part 4, edge by edge, with LAT = 1 (`extra` = 0) -/

/-- e1: CONV 2048 accepted. -/
theorem test_edge_accepts : fieldOf (·.phase) (clockEdge 0 (Pins.offer 0x0100000800#40) State.reset) =
    some (.busy 0x0100000800#40 0) := by decide
/-- e2: it executes. -/
theorem test_edge_executes : fieldOf (fun t => (t.phase, t.rspq))
    (clockEdge 0 Pins.quiet { State.reset with phase := .busy 0x0100000800#40 0 }) = some (.resp, 0x00000001A9#40) := by decide
/-- e4: the response is taken, and FRST, offered at that edge, is not accepted. -/
theorem test_edge_hands_off : fieldOf (fun t => (t.phase, t.taken))
    (clockEdge 0 { Pins.offer 0x0300000000#40 with rspReady := true } { State.reset with phase := .resp, rspq := 0x00000001A9#40 }) =
    some (.idle, [0x00000001A9#40]) := by decide
/-- e6: reset abandons the accepted FRST. -/
theorem test_edge_reset : fieldOf (·.phase) (clockEdge 0 { Pins.quiet with rst := true }
    { State.reset with phase := .busy 0x0300000000#40 0 }) = some .idle := by decide

/-! ## Assembler (R78) -/

theorem test_asm_negative : assembleLine "ceval -32768".toList = .ok (some 0x0500008000#40) := by decide
theorem test_asm_count : assembleLine "NOP 1".toList = .error .operandCount := by decide
theorem test_asm_unknown : assembleLine "ADD 1".toList = .error .unknownMnemonic := by decide
theorem test_asm_written : asmLine "cinit".toList .decimal (.cinit 1000 (-950)) = "cinit 1000, -950".toList := by decide
theorem test_asm_comment : assembleLine " ; nothing".toList = .ok none := by decide

/-! ## Witnesses: a concrete state and operands that meet the hypotheses of each statement that has some -/

theorem witness_wellFormed_extremes :
    (Instr.cinit 32767 (-32768)).wellFormed = true ∧ (Instr.conv 65535).wellFormed = true ∧ (Instr.fupd (-32768)).wellFormed = true ∧
    (Instr.ceval 32767).wellFormed = true ∧ (Instr.proc 0).wellFormed = true ∧ (Instr.rdreg 65535).wellFormed = true ∧
    Instr.nop.wellFormed = true ∧ Instr.frst.wellFormed = true := by decide

theorem witness_Reencoding : decodeWord 0x04_8000_7FFF#40 = .ok (.cinit 32767 (-32768)) ∧ decodeWord 0x0312345678#40 = .ok .frst := by
  decide

theorem witness_IgnoredFields : (0x05#8 ≠ 0x04#8) ∧ ((0x00#8 = 0x00#8) ∨ (0x00#8 = 0x03#8)) ∧ (0x07#8).toNat ≤ 0x07 := by decide

theorem witness_IllegalWords : 0x08 ≤ (opField 0x0800000000#40).toNat ∧ 0x08 ≤ (opField 0xFF00000000#40).toNat ∧
    (opField 0x07FFFFFFFF#40).toNat < 0x08 := by decide

/-- The clauses of the converter's statements at their boundary 4095, 4096. -/
theorem witness_Convert : (4095 ≤ 4095) ∧ (4095 < 4096) ∧ convert 4095 = 1250 ∧ convert 4096 = 1250 ∧ (4094 < 4095) ∧
    (4094 + 1 ≤ 4095) ∧ (4092 + 3 ≤ 4095) ∧ (-400 ≤ (1250 : Int)) := by decide

theorem witness_FupdWarmUp : State.reset.fcount.val < 4 ∧ fourSamples.fcount.val < 5 ∧ fourSamples.fcount.val = 4 := by decide

theorem witness_FupdSteady : fiveSamples.fcount.val = 5 := by decide

theorem witness_Truncation : 0 ≤ (6 : Int) ∧ (-6 : Int) ≤ 0 := by decide

theorem witness_FirstUpdate_frst : ∃ u, exec .frst fiveSamples = .next u := ⟨_, rfl⟩
theorem witness_FirstUpdate_reset : ∃ u, u = blockReset fiveSamples ∧ -32768 ≤ (100 : Int) ∧ (100 : Int) ≤ 32767 := by
  exact ⟨_, rfl, by decide, by decide⟩

theorem filterInv_fourPipelined : FilterInv fourPipelined where
  sum_eq := by decide
  index_eq := by decide
  unwritten_zero := by decide

theorem filterInv_fivePipelined : FilterInv fivePipelined where
  sum_eq := by decide
  index_eq := by decide
  unwritten_zero := by decide

theorem witness_FiveMostRecent : FilterInv fourPipelined ∧ FilterInv fivePipelined ∧ -32768 ≤ (32767 : Int) ∧ (32767 : Int) ≤ 32767 :=
  ⟨filterInv_fourPipelined, filterInv_fivePipelined, by decide, by decide⟩

theorem samplesInRange_fivePipelined : SamplesInRange fivePipelined := by
  unfold SamplesInRange
  decide

theorem witness_FilterArithmetic : FilterInv fivePipelined ∧ SamplesInRange fivePipelined :=
  ⟨filterInv_fivePipelined, samplesInRange_fivePipelined⟩

theorem witness_FirstCinit : (Instr.cinit 950 950).wellFormed = true ∧ State.reset.cvalid = false ∧ (950 : Int) ≤ 950 := by decide

theorem witness_CinitRefusals : (started .Safe).cvalid = true ∧ State.reset.cvalid = false ∧ (950 : Int) > 949 := by decide

/-- Each clause of CEVAL at its boundary: 1000 and 999 from Safe, 950 and 951 from Unsafe. -/
theorem witness_Ceval : (started .Safe).cvalid = true ∧ (started .Safe).cstate = .Safe ∧ (started .Safe).chigh.toInt ≤ 1000 ∧
    999 < (started .Safe).chigh.toInt ∧ (started .Unsafe).cstate = .Unsafe ∧ 950 ≤ (started .Unsafe).clow.toInt ∧
    (started .Unsafe).clow.toInt < 951 := by decide

theorem witness_Uninit : State.reset.cvalid = false ∧ ((∃ v, Instr.ceval 1 = .ceval v) ∨ (∃ raw, Instr.ceval 1 = .proc raw)) :=
  ⟨rfl, .inl ⟨1, rfl⟩⟩
theorem witness_Uninit_proc : (∃ v, Instr.proc 0 = .ceval v) ∨ (∃ raw, Instr.proc 0 = .proc raw) := .inr ⟨0, rfl⟩

theorem witness_DeadZone : (started .Unsafe).cvalid = true ∧
    ∀ v ∈ [951, 999, (975 : Int)], (started .Unsafe).clow.toInt < v ∧ v < (started .Unsafe).chigh.toInt := by decide

theorem witness_CstateMoves_ceval : fieldOf (·.cstate) (exec (.ceval 1000) (started .Safe)) = some .Unsafe := by decide
theorem witness_CstateMoves_proc : fieldOf (·.cstate) (exec (.proc 3500) fourPipelined) = some .Unsafe := by decide
theorem witness_CstateMoves_cinit : fieldOf (·.cstate) (exec (.cinit 5 5) { State.reset with cstate := .Unsafe }) = some .Safe := by
  decide

theorem witness_Thresholds : (pinsNow (State.reset.withFetchWord 40 0x0403B603E8)).rst = false ∧
    after (·.cvalid) 0x0403B603E8 State.reset = some true ∧ after (·.chigh) 0x0000000000 (started .Safe) = some 1000#16 := by decide

theorem witness_Proc : (started .Safe).cvalid = true ∧ (started .Safe).fcount.val < 4 ∧ fourPipelined.cvalid = true ∧
    4 ≤ fourPipelined.fcount.val ∧ fourPipelined.fcount.val < 5 ∧ fivePipelined.cvalid = true ∧ fivePipelined.fcount.val = 5 := by decide

theorem witness_ProcChain : fourPipelined.cvalid = true ∧ FilterInv fourPipelined := ⟨rfl, filterInv_fourPipelined⟩

theorem witness_ProcRange : fivePipelined.cvalid = true ∧ FilterInv fivePipelined ∧ SamplesInRange fivePipelined ∧
    ∃ t, exec (.proc 0) fivePipelined = .next t :=
  ⟨rfl, filterInv_fivePipelined, samplesInRange_fivePipelined, _, rfl⟩

theorem witness_Rdreg : (0x0A, (2#32 : BitVec 32)) ∈
    [(0x0A, (started .Safe).cstate.bit.zeroExtend 32 + (if (started .Safe).cvalid = true then 2#32 else 0#32))] ∧
    0x000B < 0x000C := by decide

/-- The same registers with a response presented: RDREG's view and STATE are the same, so every index is answered alike. -/
theorem witness_RdregObserves : ∀ index : Nat, index ≤ 0x000B → ∃ a b, exec (.rdreg index) fivePipelined = .next a ∧
    exec (.rdreg index) { fivePipelined with phase := .resp, rspq := 1#40 } = .next b ∧
    rspD1 a.rspq = rspD1 b.rspq ∧ rspD0 a.rspq = rspD0 b.rspq := by
  intro index _
  have view : value32 index { fivePipelined with phase := .resp, rspq := 1#40 } = value32 index fivePipelined := rfl
  simp only [exec, execRdreg, view]
  cases value32 index fivePipelined with
  | some v => exact ⟨_, _, rfl, rfl, rfl, rfl⟩
  | none => exact ⟨_, _, rfl, rfl, rfl, rfl⟩

theorem witness_ErrorsPrecise : (fieldOf (fun t => rspStatus t.rspq) (runWord 0x0000000000#40 State.reset) = some 0#4) ∧
    (fieldOf (fun t => rspStatus t.rspq) (runWord 0x070000000C#40 State.reset) = some 4#4) := by decide

theorem witness_Sticky : (pinsNow (State.reset.withFetchWord 40 0x070000000C)).rst = false ∧
    after (·.errf) 0x070000000C State.reset = some 0b01000#5 ∧
    after (·.errf) 0x0000000000 { State.reset with errf := 0b01000#5 } = some 0b01000#5 ∧
    fieldOf (·.errf) (step { State.reset with errf := 0b01000#5, inputs := [{ Pins.quiet with rst := true }] }) = some 0#5 := by
  decide

theorem witness_ReadyFlag : fieldOf (fun t => (rspReadyFlag t.rspq, t.fcount.val)) (runWord 0x02000001F4#40 fourSamples) = some (1#1, 5) := by
  decide

/-- A reset edge while a command is in flight. -/
theorem witness_ResetEdge :
    (pinsNow { fivePipelined with phase := .busy 0x0300000000#40 0, inputs := [{ Pins.quiet with rst := true }] }).rst = true := by
  decide

theorem witness_Ports : cmdReady false State.reset = true ∧ rspValid false { State.reset with phase := .resp } = true ∧
    rspValid true { State.reset with phase := .resp } = false := by decide

theorem witness_Acceptance : cmdReady (pinsNow { State.reset with inputs := [Pins.offer 0x0000000000#40] }).rst State.reset = true ∧
    (pinsNow { State.reset with inputs := [Pins.offer 0x0000000000#40] }).cmdValid = true ∧
    cmdReady Pins.take.rst { State.reset with phase := .resp, inputs := [Pins.take] } = false ∧
    State.reset.phase = .idle ∧ (pinsNow { State.reset with inputs := [{ Pins.quiet with cmdWord := 7#40 }] }).cmdValid = false := by decide

theorem witness_StepRuns : (State.reset.withFetchWord 40 0x0100000800).phase = .busy 0x0100000800#40 0 ∧
    (pinsNow (State.reset.withFetchWord 40 0x0100000800)).rst = false ∧ decodeWord 0x0100000800#40 = .ok (.conv 2048) ∧
    decodeWord 0x0800000000#40 = .error (.illegalOp 0x08#8) ∧ fieldOf (·.phase) (exec (.conv 2048) State.reset) = some .idle := by decide

theorem witness_ResponseHolds : ({ State.reset with phase := .resp, inputs := [Pins.take] } : State).phase = .resp ∧
    (pinsNow { State.reset with phase := .resp, inputs := [Pins.take] }).rst = false ∧
    (pinsNow { State.reset with phase := .resp, inputs := [Pins.take] }).rspReady = true ∧
    (pinsNow { State.reset with phase := .resp }).rspReady = false := by decide

/-- A host that offers NOP at reset and waits, whatever LAT is. -/
theorem witness_Latency : ∃ (s : State) (p : Pins) (meanwhile rest : List Pins), s.phase = .idle ∧ s.inputs = p :: (meanwhile ++ rest) ∧
    p.rst = false ∧ p.cmdValid = true ∧ meanwhile.length = Config.lat s.latTick ∧ ∀ q ∈ meanwhile, q.rst = false := by
  refine ⟨{ State.reset with inputs := Pins.offer 0#40 :: (List.replicate (Config.lat 0) Pins.quiet ++ []) }, Pins.offer 0#40,
    List.replicate (Config.lat 0) Pins.quiet, [], rfl, rfl, rfl, rfl, List.length_replicate, ?_⟩
  intro q mem
  rw [List.eq_of_mem_replicate mem]
  rfl

/-- A host that waits two edges before its second offer and one before it takes that response. -/
def twoTurns : List HostTurn :=
  [{ word := 0x0100000800#40, before := 0, hold := 0 }, { word := 0x0800000000#40, before := 2, hold := 1 }]

theorem witness_HandshakeRun : ∃ s : State, s.phase = .idle ∧ s.inputs = hostPins s.latTick twoTurns ∧
    s.executed = [] ∧ s.taken = [] :=
  ⟨{ State.reset with inputs := hostPins 0 twoTurns }, rfl, rfl, rfl, rfl⟩

theorem witness_OnlyRegisters : registersOf fivePipelined = registersOf { fivePipelined with phase := .resp, latTick := 3 } := rfl

theorem goodState_fivePipelined : GoodState fivePipelined where
  filter := filterInv_fivePipelined
  classifier := { ordered := by decide, untouched := by decide }
  response := { rsv_zero := by decide, status_known := by decide, error_bare := by decide, state_shown := by decide }

/-- A good state whose next edge executes a PROC. -/
theorem witness_GoodStateStep : GoodState (fivePipelined.withFetchWord 40 0x0600000CE4) ∧
    after (·.phase) 0x0600000CE4 fivePipelined = some .resp :=
  ⟨{ filter := { sum_eq := by decide, index_eq := by decide, unwritten_zero := by decide }
     classifier := { ordered := by decide, untouched := by decide }
     response := { rsv_zero := by decide, status_known := by decide, error_bare := by decide, state_shown := by decide } }, by decide⟩

/-- The reset state with NOP in flight has the empty history, and its next edge executes it. -/
theorem witness_HistoryStep : FollowsHistory (State.reset.withFetchWord 40 0) ∧ after (·.executed) 0 State.reset = some [0#40] :=
  ⟨⟨State.reset, rfl, rfl, rfl⟩, by decide⟩

/-- The state one step short of the end of a run of NOP: its history is that of the executed NOP, and taking the response ends
the run. -/
theorem witness_EndedRun :
    (let s := { State.reset with phase := .resp, executed := [0#40], inputs := [Pins.take] }
     FollowsHistory s ∧ ∃ u, Host.Core.run core 1 s = .next u ∧ runEnded [0#40] u = true) :=
  ⟨⟨{ State.reset with executed := [0#40], taken := [0#40] }, rfl, rfl, rfl⟩, _, rfl, by decide⟩

theorem witness_Channels : ∃ s, ([State.reset, fiveSamples] : Channels)[1]? = some s ∧ (0 : Nat) ≠ 1 := ⟨_, rfl, by decide⟩

theorem witness_Assembled : assembleLine "RDREG 0x000B".toList = .ok (some 0x070000000B#40) ∧
    lineName (stripLine "RDREG 0x000B".toList) ≠ ['.', 'w', 'o', 'r', 'd'] := by decide

/-- A mnemonic in mixed case, an instruction in range and one out of it. -/
theorem witness_Written : "cInit".toList.map Char.toUpper = mnemonicText (.cinit 32767 (-32768)) ∧
    (Instr.cinit 32767 (-32768)).wellFormed = true ∧
    "Fupd".toList.map Char.toUpper = mnemonicText (.fupd 32768) ∧ (Instr.fupd 32768).wellFormed = false := by decide

theorem witness_WideHexadecimal : 0xFFFF < 0x10000 ∧
    "Fupd".toList.map Char.toUpper ∈ ["CONV".toList, "FUPD".toList, "CEVAL".toList, "PROC".toList, "RDREG".toList] ∧
    "cinit".toList.map Char.toUpper = "CINIT".toList ∧
    assembleLine "FUPD 0x10000".toList = .error .operandOutOfRange := by decide

end Sys2Proof.Tests
end

section
/-! SUPPORT. Several channels (00_scope.md R6, 60_exceptions.md R208): an edge of one channel replaces that channel's state in the
list, and nothing else. -/

namespace Sys2Proof.Machine

/-- Every edge gives a next state (R80). -/
theorem step_next (s : State) : ∃ t, step s = .next t := by
  obtain ⟨-, h⟩ | ⟨-, ⟨-, -, h⟩ | ⟨_, _, -, h⟩ | ⟨_, _, -, -, -, h⟩ | ⟨-, -, h⟩ | ⟨-, h⟩⟩ := step_cases s <;> exact ⟨_, h⟩

/-- Naming a channel that does not exist moves nothing (log entry 17). -/
theorem stepChannel_absent {k : Nat} {cs : Channels} (absent : cs[k]? = none) : stepChannel k cs = .next cs := by
  induction cs generalizing k with
  | nil => simp [stepChannel]
  | cons c rest ih =>
    cases k with
    | zero => simp at absent
    | succ k => simp [stepChannel, ih (by simpa using absent)]

/-- An edge of a channel puts the state its own step gives in that channel's place. -/
theorem stepChannel_present {k : Nat} {cs : Channels} {s t : State} (found : cs[k]? = some s) (edge : step s = .next t) :
    stepChannel k cs = .next (cs.set k t) := by
  induction cs generalizing k with
  | nil => simp at found
  | cons c rest ih =>
    cases k with
    | zero =>
      obtain rfl : c = s := by simpa using found
      simp [stepChannel, edge]
    | succ k => simp [stepChannel, ih (by simpa using found)]

/-- Settles O50: the edge replaces channel `k`'s state alone, so every other place of the list reads as before. -/
theorem channelsShareNoState : Obligations.ChannelsShareNoState := by
  unfold Obligations.ChannelsShareNoState
  intro k cs
  cases here : cs[k]? with
  | none => exact ⟨cs, stepChannel_absent here, rfl, fun _ _ => rfl, fun _ h => nomatch h⟩
  | some s =>
    obtain ⟨t, edge⟩ := step_next s
    obtain ⟨bound, -⟩ := List.getElem?_eq_some_iff.mp here
    refine ⟨cs.set k t, stepChannel_present here edge, List.length_set, fun j other => List.getElem?_set_ne other.symm, ?_⟩
    rintro _ ⟨⟩
    exact ⟨t, edge, List.getElem?_set_self bound⟩

end Sys2Proof.Machine
end

section
/-! SUPPORT. What a command does, said once for all eight: the error that refuses it, or the registers it writes and the response
that shows them (30_encoding.md R80, 60_exceptions.md R203). -/

namespace Sys2Proof.Machine

/-- The error that refuses a command, or `none` where it completes (R142, R143, R160, R161). -/
def refusal (i : Instr) (s : State) : Option ErrorKind :=
  match i with
  | .nop | .conv _ | .fupd _ | .frst => none
  | .cinit high low => if s.cvalid then some .reinit else if low > high then some .thresh else none
  | .ceval _ | .proc _ => if s.cvalid then none else some .uninit
  | .rdreg index => if (value32 index s).isSome then none else some .badreg

/-- The registers, but for RSPQ, after a command that completes. -/
def effect (i : Instr) (s : State) : State :=
  match i with
  | .nop | .conv _ | .rdreg _ => s
  | .fupd sample => filterUpdate sample s
  | .frst => filterClear s
  | .cinit high low => startClassifier high low s
  | .ceval value => classify value s
  | .proc raw => classifyWhenReady (filterUpdate (convert raw) s)

/-- The commands that feed the filter, and so may be READY (R34). -/
def feedsFilter : Instr → Bool
  | .fupd _ | .proc _ => true
  | .nop | .conv _ | .frst | .cinit _ _ | .ceval _ | .rdreg _ => false

/-- READY of a completed command's response, `u` being the registers after it (R34). -/
def showsReady (i : Instr) (u : State) : Bool := feedsFilter i && filterReady u

/-- A refused command only raises its error. -/
theorem exec_of_refused {i : Instr} {s : State} {e : ErrorKind} (h : refusal i s = some e) :
    exec i s = .next (raiseError e s) := by
  cases i with
  | nop | conv _ | fupd _ | frst => cases h
  | cinit _ _ | ceval _ | proc _ =>
    simp only [refusal] at h
    simp only [exec, execCinit, execCeval, execProc]
    split_ifs at h ⊢ <;> cases h <;> rfl
  | rdreg index =>
    simp only [refusal] at h
    simp only [exec, execRdreg]
    cases found : value32 index s <;> simp only [found] at h <;> cases h
    rfl

/-- The classifier writes no filter register, so readiness may be read before it or after it. -/
@[simp] theorem filterReady_classifyWhenReady (s : State) : filterReady (classifyWhenReady s) = filterReady s := by
  simp [filterReady]

/-- A command that completes has its effect and responds OK with the READY and the STATE after it. -/
theorem exec_of_accepted {i : Instr} {s : State} (h : refusal i s = none) :
    ∃ d1 d0, exec i s = .next (respond .ok (showsReady i (effect i s)) (effect i s).cstate d1 d0 (effect i s)) := by
  cases i with
  | nop | conv _ | fupd _ | frst => exact ⟨_, _, rfl⟩
  | cinit _ _ | ceval _ | proc _ =>
    simp only [refusal] at h
    simp only [exec, execCinit, execCeval, execProc, showsReady, feedsFilter, effect, filterReady_classifyWhenReady, Bool.true_and]
    split_ifs at h ⊢
    exact ⟨_, _, rfl⟩
  | rdreg index =>
    simp only [refusal] at h
    simp only [exec, execRdreg]
    cases found : value32 index s <;> simp only [found] at h
    · cases h
    · exact ⟨_, _, rfl⟩

/-- What a command can do: it is refused, or it completes with its effect. -/
theorem exec_cases {i : Instr} {s t : State} (h : exec i s = .next t) :
    (∃ e, refusal i s = some e ∧ t = raiseError e s) ∨
    (refusal i s = none ∧
      ∃ d1 d0, t = respond .ok (showsReady i (effect i s)) (effect i s).cstate d1 d0 (effect i s)) := by
  cases outcome : refusal i s with
  | some e =>
    rw [exec_of_refused outcome] at h
    cases h
    exact .inl ⟨e, rfl, rfl⟩
  | none =>
    obtain ⟨d1, d0, done⟩ := exec_of_accepted outcome
    rw [done] at h
    cases h
    exact .inr ⟨rfl, d1, d0, rfl⟩

theorem refusal_cinit_eq_none {high low : Int} {s : State} (h : refusal (.cinit high low) s = none) :
    s.cvalid = false ∧ low ≤ high := by
  simp only [refusal] at h
  split_ifs at h with set unordered
  exact ⟨Bool.eq_false_of_not_eq_true set, Int.not_lt.mp unordered⟩

/-- The updates of R34: an FUPD, or a PROC that is not refused. -/
theorem feedsFilter_accepted_iff (i : Instr) (s : State) :
    (feedsFilter i = true ∧ refusal i s = none) ↔ (∃ x, i = .fupd x) ∨ ∃ raw, i = .proc raw ∧ s.cvalid = true := by
  cases i <;> simp [feedsFilter, refusal]

end Sys2Proof.Machine
end

section
/-! The state's registers (10_state.md): who writes the thresholds (R28), the flags of a response (R34), the reset values (R35). -/

namespace Sys2Proof.Machine

/-! ## The thresholds (R28) -/

/-- `t` has the thresholds and the CVALID of `s`. -/
def SameThresholds (s t : State) : Prop := t.chigh = s.chigh ∧ t.clow = s.clow ∧ t.cvalid = s.cvalid

/-- From `s` to `t` a CINIT with these operands has succeeded, as far as the thresholds and CVALID show it (R142). -/
def ThresholdsSet (high low : Int) (s t : State) : Prop :=
  s.cvalid = false ∧ low ≤ high ∧ t.chigh = bits16 high ∧ t.clow = bits16 low ∧ t.cvalid = true

/-- No effect but CINIT's writes the thresholds. -/
theorem effect_thresholds (i : Instr) (s : State) :
    (∃ high low, i = .cinit high low) ∨ SameThresholds s (effect i s) := by
  cases i with
  | cinit high low => exact .inl ⟨high, low, rfl⟩
  | nop | conv _ | rdreg _ | fupd _ | frst | ceval _ | proc _ => exact .inr (by simp [SameThresholds, effect])

theorem exec_thresholds {i : Instr} {s t : State} (h : exec i s = .next t) :
    SameThresholds s t ∨ ∃ high low, i = .cinit high low ∧ ThresholdsSet high low s t := by
  obtain ⟨e, -, rfl⟩ | ⟨accepted, d1, d0, rfl⟩ := exec_cases h
  · exact .inl ⟨rfl, rfl, rfl⟩
  · obtain ⟨high, low, rfl⟩ | same := effect_thresholds i s
    · obtain ⟨unset, ordered⟩ := refusal_cinit_eq_none accepted
      exact .inr ⟨high, low, rfl, unset, ordered, rfl, rfl, rfl⟩
    · exact .inl same

theorem runWord_thresholds {w : CmdWord} {s t : State} (h : runWord w s = .next t) :
    SameThresholds s t ∨ ∃ high low, decodeWord w = .ok (.cinit high low) ∧ ThresholdsSet high low s t := by
  obtain ⟨i, decoded, run⟩ | ⟨e, -, run⟩ := runWord_cases w s
  · obtain same | ⟨high, low, rfl, set⟩ := exec_thresholds (run.symm.trans h)
    · exact .inl same
    · exact .inr ⟨high, low, decoded, set⟩
  · cases run.symm.trans h
    exact .inl ⟨rfl, rfl, rfl⟩

/-- Of the edges without reset only the one that executes a successful CINIT writes the thresholds. -/
theorem step_thresholds {s t : State} (h : step s = .next t) (running : (pinsNow s).rst = false) :
    SameThresholds s t ∨
    ∃ w high low, s.phase = .busy w 0 ∧ decodeWord w = .ok (.cinit high low) ∧ ThresholdsSet high low s t := by
  obtain ⟨reset, -⟩ | ⟨-, ⟨-, -, edge⟩ | ⟨_, _, -, edge⟩ | ⟨w, u, due, run, -, edge⟩ | ⟨-, -, edge⟩ | ⟨-, edge⟩⟩ := step_cases s
  · simp [running] at reset
  case inr.inr.inr.inl =>
    cases edge.symm.trans h
    obtain same | ⟨high, low, decoded, set⟩ := runWord_thresholds run
    · exact .inl same
    · exact .inr ⟨w, high, low, due, decoded, set⟩
  all_goals
    cases edge.symm.trans h
    exact .inl ⟨rfl, rfl, rfl⟩

/-- The fields of a decoded CINIT hold its operands, read back as signed numbers (R72). -/
theorem toInt_bits16_of_decoded_cinit {w : CmdWord} {high low : Int} (h : decodeWord w = .ok (.cinit high low)) :
    (bits16 high).toInt = high ∧ (bits16 low).toInt = low := by
  have inRange := decodeWord_wellFormed h
  simp only [Instr.wellFormed, inSigned16, Bool.and_eq_true, decide_eq_true_eq] at inRange
  obtain ⟨⟨highLo, highHi⟩, lowLo, lowHi⟩ := inRange
  exact ⟨sext16_bits16 highLo highHi, sext16_bits16 lowLo lowHi⟩

/-- Settles O25: the only edge without reset that writes the thresholds needs CVALID = 0, and it writes the operands. -/
theorem thresholdsAreFixedUntilReset : Obligations.ThresholdsAreFixedUntilReset := by
  unfold Obligations.ThresholdsAreFixedUntilReset
  intro s t edge running
  obtain ⟨high, low, valid⟩ | ⟨w, high, low, due, decoded, unset, ordered, highSet, lowSet, validSet⟩ := step_thresholds edge running
  · refine ⟨fun was => ⟨high, low, valid.trans was⟩, ?_⟩
    rintro (moved | moved | moved)
    · exact absurd high moved
    · exact absurd low moved
    · exact absurd valid moved
  · obtain ⟨highBack, lowBack⟩ := toInt_bits16_of_decoded_cinit decoded
    refine ⟨fun was => ?_, fun _ => ⟨w, high, low, due, decoded, unset, ordered, validSet, ?_, ?_⟩⟩
    · simp [unset] at was
    · rw [highSet, highBack]
    · rw [lowSet, lowBack]

/-! ## The flags of a response (R34) -/

theorem flagBit_eq_one_iff (b : Bool) : flagBit b = 1#1 ↔ b = true := by cases b <;> decide

theorem exec_stateFlag {i : Instr} {s t : State} (h : exec i s = .next t) : rspStateFlag t.rspq = t.cstate.bit := by
  obtain ⟨e, -, rfl⟩ | ⟨-, d1, d0, rfl⟩ := exec_cases h <;> simp

/-- READY, by the refusal: a refused command shows 0, one that completes shows whether it fed the filter full. -/
theorem exec_readyFlag_iff {i : Instr} {s t : State} (h : exec i s = .next t) :
    rspReadyFlag t.rspq = 1#1 ↔ (feedsFilter i = true ∧ refusal i s = none) ∧ t.fcount.val = 5 := by
  obtain ⟨e, refused, rfl⟩ | ⟨accepted, d1, d0, rfl⟩ := exec_cases h
  · simp [refused]
  · simp [accepted, flagBit_eq_one_iff, showsReady, filterReady_iff]

/-- Settles O34: for a decoded word by what its command can do; an illegal word raises an error, which is never READY. -/
theorem readyAndStateFlagsOfEveryResponse : Obligations.ReadyAndStateFlagsOfEveryResponse := by
  unfold Obligations.ReadyAndStateFlagsOfEveryResponse
  intro w s t h
  obtain ⟨i, decoded, run⟩ | ⟨e, decoded, run⟩ := runWord_cases w s
  · have done := run.symm.trans h
    refine ⟨exec_stateFlag done, ?_⟩
    rw [exec_readyFlag_iff done, feedsFilter_accepted_iff]
    simp [decoded]
  · cases run.symm.trans h
    simp [decoded]

/-! ## The reset values (R35) -/

/-- Settles O35: the five slots are the cleared ring's, every other register is as `State.reset` lists it. -/
theorem resetLeavesTheStatedValues : Obligations.ResetLeavesTheStatedValues := by
  unfold Obligations.ResetLeavesTheStatedValues
  exact ⟨get_zero, rfl, rfl, rfl, rfl, rfl, rfl, rfl, rfl, rfl, rfl⟩

end Sys2Proof.Machine
end

section
/-! RDREG and the register map (20_memory.md R55, 43_pipeline_and_control.md R161). -/

namespace Sys2Proof.Machine

/-! ## The view of the registers -/

/-- R55's rows for index 0x00 to 0x0B, each register at its own width extended to 32 bits. -/
def registerMap (s : State) : List (Nat × BitVec 32) :=
  [(0x00, (s.fbuf.get 0).signExtend 32), (0x01, (s.fbuf.get 1).signExtend 32), (0x02, (s.fbuf.get 2).signExtend 32),
   (0x03, (s.fbuf.get 3).signExtend 32), (0x04, (s.fbuf.get 4).signExtend 32), (0x05, s.fsum),
   (0x06, BitVec.ofNat 32 s.fcount.val), (0x07, BitVec.ofNat 32 s.fidx.val),
   (0x08, s.chigh.signExtend 32), (0x09, s.clow.signExtend 32),
   (0x0A, s.cstate.bit.zeroExtend 32 + (if s.cvalid = true then 2#32 else 0#32)), (0x0B, s.errf.zeroExtend 32)]

/-- CSTAT's concatenation is CSTATE in bit 0 plus CVALID's weight 2. -/
theorem cstat_eq_add (c : CState) (valid : Bool) :
    0#30 ++ (flagBit valid ++ c.bit) = c.bit.zeroExtend 32 + (if valid = true then 2#32 else 0#32) := by
  cases c <;> cases valid <;> decide

theorem zero_append_errf (e : BitVec 5) : 0#27 ++ e = e.zeroExtend 32 :=
  (BitVec.setWidth_eq_append (by decide)).symm

/-- Every row of the map is what `value32` reads at its index. -/
theorem value32_of_mem_registerMap {s : State} {index : Nat} {v : BitVec 32} (row : (index, v) ∈ registerMap s) :
    value32 index s = some v := by
  suffices rows : ∀ r ∈ registerMap s, value32 r.1 s = some r.2 from rows _ row
  simp only [registerMap, List.forall_mem_cons]
  have cstat := congrArg some (cstat_eq_add s.cstate s.cvalid)
  have errf := congrArg some (zero_append_errf s.errf)
  exact ⟨rfl, rfl, rfl, rfl, rfl, rfl, rfl, rfl, rfl, rfl, cstat, errf, List.forall_mem_nil _⟩

/-- No index above 0x000B names a register. -/
theorem value32_eq_none {index : Nat} (above : 0x000B < index) (s : State) : value32 index s = none := by
  unfold value32
  split
  case h_13 => rfl
  all_goals omega

/-! ## The response -/

theorem bits16_toNat (v : BitVec 16) : bits16 (Int.ofNat v.toNat) = v := by simp [bits16]

/-- The two halves of a 32-bit value, as RDREG puts them in D1 and D0, side by side give it back (R51). -/
theorem bits16_halves_append (v : BitVec 32) :
    bits16 (Int.ofNat (v.extractLsb' 16 16).toNat) ++ bits16 (Int.ofNat (v.extractLsb' 0 16).toNat) = v := by
  rw [bits16_toNat, bits16_toNat]
  exact (BitVec.extractLsb'_append_extractLsb'_eq_extractLsb' rfl).trans BitVec.extractLsb'_eq_self

theorem exec_rdreg_of_some {index : Nat} {s : State} {v : BitVec 32} (named : value32 index s = some v) :
    exec (.rdreg index) s =
      .next (respond .ok false s.cstate (Int.ofNat (v.extractLsb' 16 16).toNat) (Int.ofNat (v.extractLsb' 0 16).toNat) s) := by
  simp only [exec, execRdreg, named]

theorem exec_rdreg_of_none {index : Nat} {s : State} (unnamed : value32 index s = none) :
    exec (.rdreg index) s = .next (raiseError .badreg s) :=
  exec_of_refused (by simp [refusal, unnamed])

/-- Settles O29: `value32` reads every row of the map, and its two halves travel in D1 and D0; above the map it reads nothing. -/
theorem rdregReadsTheRegisterMap : Obligations.RdregReadsTheRegisterMap := by
  unfold Obligations.RdregReadsTheRegisterMap
  refine ⟨fun s index v row => ?_, fun index s above => ?_⟩
  · have run := exec_rdreg_of_some (value32_of_mem_registerMap row)
    refine ⟨_, run, rfl, ?_, by simp, by simp, by simp⟩
    rw [respond_rspq, rspD1_responseWord, rspD0_responseWord, bits16_halves_append]
  · have run := exec_rdreg_of_none (value32_eq_none above s)
    exact ⟨_, run, rfl, by simp [Status.code, ErrorKind.code], by simp, by simp, by simp, by simp⟩

end Sys2Proof.Machine
end

section
/-! What of a command word the decoder reads (30_encoding.md R74, R75): the fields an operation ignores, and the illegal words. -/

namespace Sys2Proof.Machine

/-! ## Ignored fields (R75) -/

/-- The decoder reads OP, A unless the operation is NOP or FRST, and B for CINIT alone. -/
theorem decodeWord_congr {w w' : CmdWord} (op : opField w = opField w')
    (a : ¬ (opField w = 0x00#8 ∨ opField w = 0x03#8) → aField w = aField w')
    (b : opField w = 0x04#8 → bField w = bField w') : decodeWord w = decodeWord w' := by
  have row (n : Nat) (code : (opField w).toNat = n) : opField w = BitVec.ofNat 8 n := by simp [← code]
  have sameA (n : Nat) (code : (opField w).toNat = n) (reads : ¬ (BitVec.ofNat 8 n = 0x00#8 ∨ BitVec.ofNat 8 n = 0x03#8)) :
      aField w = aField w' := a (row n code ▸ reads)
  unfold decodeWord
  rw [← op]
  split
  case h_1 | h_4 | h_9 => rfl
  case h_2 code | h_3 code | h_6 code | h_7 code | h_8 code =>
    simp only [unsignedA, signedA, sameA _ code (by decide)]
  case h_5 code =>
    simp only [signedA, signedB, sameA _ code (by decide), b (row _ code)]

/-- What a word does depends only on what it decodes to. -/
theorem runWord_congr {w w' : CmdWord} (same : decodeWord w = decodeWord w') (s : State) : runWord w s = runWord w' s := by
  simp only [runWord, same]

/-! ## Illegal words (R74) -/

/-- OP alone separates the commands from the illegal words. -/
theorem decodeWord_ok_or_illegalOp (w : CmdWord) :
    ((opField w).toNat < 0x08 ∧ ∃ i, decodeWord w = .ok i) ∨
    (0x08 ≤ (opField w).toNat ∧ decodeWord w = .error (.illegalOp (opField w))) := by
  obtain ⟨op, row⟩ | ⟨op, row⟩ | ⟨op, row⟩ | ⟨op, row⟩ | ⟨op, row⟩ | ⟨op, row⟩ | ⟨op, row⟩ | ⟨op, row⟩ | illegal := decodeWord_cases w
  case inr.inr.inr.inr.inr.inr.inr.inr => exact .inr illegal
  all_goals exact .inl ⟨by rw [op]; decide, _, row⟩

theorem decodeWord_ok_iff (w : CmdWord) : (∃ i, decodeWord w = .ok i) ↔ (opField w).toNat < 0x08 := by
  obtain ⟨low, ok⟩ | ⟨high, error⟩ := decodeWord_ok_or_illegalOp w
  · exact iff_of_true ok low
  · exact iff_of_false (by simp [error]) (Nat.not_lt.mpr high)

theorem decodeWord_eq_illegalOp {w : CmdWord} (high : 0x08 ≤ (opField w).toNat) :
    decodeWord w = .error (.illegalOp (opField w)) := by
  obtain ⟨low, -⟩ | ⟨-, error⟩ := decodeWord_ok_or_illegalOp w
  · omega
  · exact error

theorem runWord_of_decode_error {w : CmdWord} {e : DecodeError} (error : decodeWord w = .error e) (s : State) :
    runWord w s = .next (raiseError .illegal s) := by
  simp only [runWord, error]

/-! ## The two statements -/

/-- Settles O3: words that differ in ignored fields decode alike, so they run alike; below 0x08 the decoder answers a command. -/
theorem ignoredFieldsHaveNoEffect : Obligations.IgnoredFieldsHaveNoEffect := by
  unfold Obligations.IgnoredFieldsHaveNoEffect
  intro op a a' b b' s
  refine ⟨fun notCinit => ?_, fun noOperand => ?_, fun legal => ?_⟩
  · have same : decodeWord (cmdWord op b a) = decodeWord (cmdWord op b' a) :=
      decodeWord_congr (by simp) (by simp) (by simp [notCinit])
    exact ⟨same, runWord_congr same s⟩
  · have notCinit : op ≠ 0x04#8 := by
      obtain rfl | rfl := noOperand <;> decide
    have same : decodeWord (cmdWord op b a) = decodeWord (cmdWord op b' a') :=
      decodeWord_congr (by simp) (by simp [noOperand]) (by simp [notCinit])
    exact ⟨same, runWord_congr same s⟩
  · exact (decodeWord_ok_iff _).mpr (by simpa using Nat.lt_succ_of_le legal)

/-- Settles O4: the decoder rejects exactly OP 0x08 and above, and a rejected word only raises ERR_ILLEGAL. -/
theorem illegalWordsOnlySetErrfBitZero : Obligations.IllegalWordsOnlySetErrfBitZero := by
  unfold Obligations.IllegalWordsOnlySetErrfBitZero
  intro w s
  refine ⟨decodeWord_ok_iff w, fun high => ?_⟩
  have error := decodeWord_eq_illegalOp high
  refine ⟨error, raiseError .illegal s, runWord_of_decode_error error s, rfl, ?_⟩
  simp [Status.code, ErrorKind.code]

end Sys2Proof.Machine
end

section
/-! The Converter (40_converter.md): the formula and its saturation (R100, R101, R103), and CONV (R105). -/

namespace Sys2Proof.Machine

/-! ## The function -/

/-- The quotient of a saturated code is at most the span, so the output clamp never changes a value (R103). -/
theorem convert_eq_unclamped (raw : Nat) : convert raw = -400 + (((min raw 4095 * 1650 + 2047) / 4095 : Nat) : Int) := by
  have quotient : (min raw 4095 * 1650 + 2047) / 4095 ≤ 1650 := by omega
  change clamp (-400 + (((min raw 4095 * 1650 + 2047) / 4095 : Nat) : Int)) (-400) 1250 = _
  exact clamp_eq_self (by omega) (by omega)

theorem convert_bounds (raw : Nat) : -400 ≤ convert raw ∧ convert raw ≤ 1250 := by
  rw [convert_eq_unclamped]
  omega

/-- Saturation: every code from 4095 up gives the upper end of the range (R101). -/
theorem convert_of_ge {raw : Nat} (top : 4095 ≤ raw) : convert raw = 1250 := by
  rw [convert_eq_unclamped, Nat.min_eq_right top]
  rfl

/-- A temperature fits the 16-bit signed field (R104). -/
theorem toInt_bits16_convert (raw : Nat) : (bits16 (convert raw)).toInt = convert raw := by
  obtain ⟨low, high⟩ := convert_bounds raw
  exact sext16_bits16 (by omega) (by omega)

/-! ## The command -/

theorem decodeWord_conv (b a : BitVec 16) : decodeWord (cmdWord 0x01#8 b a) = .ok (.conv a.toNat) := by
  simp [decodeWord, unsignedA, zext16]

theorem exec_conv (raw : Nat) (s : State) :
    exec (.conv raw) s = .next (respond .ok false s.cstate 0 (convert raw) s) := rfl

/-! ## The two statements -/

/-- Settles O9: the clamp of the statement is the identity on a temperature, as the model's own is; CONV has no error to raise. -/
theorem convertIsTheFormulaWithSaturation : Obligations.ConvertIsTheFormulaWithSaturation := by
  unfold Obligations.ConvertIsTheFormulaWithSaturation
  refine ⟨fun raw => ?_, fun raw above => ?_⟩
  · obtain ⟨low, high⟩ := convert_bounds raw
    rw [← convert_eq_unclamped, min_eq_right high, max_eq_right low]
  · have top := convert_of_ge above.le
    exact ⟨top.trans (convert_of_ge le_rfl).symm, top, fun s => ⟨_, exec_conv raw s, by simp, by simp⟩⟩

/-- Settles O8: CONV only responds, and its temperature fits D0, so the field reads back as the temperature itself. -/
theorem convRespondsWithTheTemperature : Obligations.ConvRespondsWithTheTemperature := by
  unfold Obligations.ConvRespondsWithTheTemperature
  refine ⟨fun a b => decodeWord_conv b a, fun raw s => ?_, by decide⟩
  refine ⟨_, exec_conv raw s, rfl, by simp, by simp, by simp, by simp, ?_⟩
  rw [respond_rspq, rspD0_responseWord, toInt_bits16_convert]

end Sys2Proof.Machine
end

section
/-! FUPD (41_filter.md R126): the frame of the filter update, its readiness and smoothed value, and the command in both branches
(R121, R122). -/

namespace Sys2Proof.Machine

/-! ## The update -/

/-- The update writes the four filter registers only. -/
theorem filterUpdate_frame (x : Int) (s : State) :
    filterUpdate x s =
      { s with
        fbuf := (filterUpdate x s).fbuf
        fsum := (filterUpdate x s).fsum
        fidx := (filterUpdate x s).fidx
        fcount := (filterUpdate x s).fcount } := by
  unfold filterUpdate
  split <;> rfl

/-- FCOUNT stays at its maximum (R122). -/
theorem filterUpdate_fcount_steady (x : Int) {s : State} (full : s.fcount.val = 5) : (filterUpdate x s).fcount = s.fcount := by
  apply Fin.ext
  rw [filterUpdate_fcount, full]
  rfl

/-- In steady state FCOUNT is not written either. -/
theorem filterUpdate_frame_steady (x : Int) {s : State} (full : s.fcount.val = 5) :
    filterUpdate x s =
      { s with
        fbuf := (filterUpdate x s).fbuf
        fsum := (filterUpdate x s).fsum
        fidx := (filterUpdate x s).fidx } := by
  have frame := filterUpdate_frame x s
  rwa [filterUpdate_fcount_steady x full] at frame

/-! ## Readiness and the smoothed field (R77, R123) -/

theorem filterReady_eq_false {s : State} (few : s.fcount.val ≠ 5) : filterReady s = false := by
  rwa [← Bool.not_eq_true, filterReady_iff]

theorem smoothedField_ready {s : State} (full : s.fcount.val = 5) : smoothedField s = tdiv s.fsum.toInt 5 := by
  simp [smoothedField, smoothed_ready full]

theorem smoothedField_warm {s : State} (few : s.fcount.val ≠ 5) : smoothedField s = 0 := by
  simp [smoothedField, smoothed_warm few]

/-! ## The command -/

theorem exec_fupd (x : Int) (s : State) :
    exec (.fupd x) s = .next (respond .ok (filterReady (filterUpdate x s)) (filterUpdate x s).cstate 0
      (smoothedField (filterUpdate x s)) (filterUpdate x s)) := rfl

/-! ## The two statements -/

/-- Settles O12: one new sample makes the count 5 exactly from 4, and the response's READY and D0 follow the new count. -/
theorem fupdWarmUpStoresAddsAdvancesCounts : Obligations.FupdWarmUpStoresAddsAdvancesCounts := by
  unfold Obligations.FupdWarmUpStoresAddsAdvancesCounts
  intro x s warm
  have count : (filterUpdate x s).fcount.val = s.fcount.val + 1 := by
    rw [filterUpdate_fcount]
    omega
  refine ⟨_, exec_fupd x s, congrArg (respond _ _ _ _ _) (filterUpdate_frame x s), filterUpdate_get x s,
    filterUpdate_fsum_warm x s warm, by simp, count, by simp, by simp, by simp, fun few => ?_, fun four => ?_⟩
  · have notFull : (filterUpdate x s).fcount.val ≠ 5 := by omega
    simp [filterReady_eq_false notFull, smoothedField_warm notFull]
  · have full : (filterUpdate x s).fcount.val = 5 := by omega
    simp [(filterReady_iff _).mpr full, smoothedField_ready full, bits16]

/-- Settles O13: a full filter stays full, so the update is ready whatever the sample. -/
theorem fupdSteadyReplacesTheOldestSample : Obligations.FupdSteadyReplacesTheOldestSample := by
  unfold Obligations.FupdSteadyReplacesTheOldestSample
  intro x s full
  have stillFull : (filterUpdate x s).fcount.val = 5 := by rw [filterUpdate_fcount_steady x full, full]
  have ready := (filterReady_iff _).mpr stillFull
  have quotient := smoothedField_ready stillFull
  exact ⟨_, exec_fupd x s, congrArg (respond _ _ _ _ _) (filterUpdate_frame_steady x full), filterUpdate_get x s,
    filterUpdate_fsum_steady x s full, by simp, by simp, by simp, by simp, by simp [ready], by simp [quotient, bits16]⟩

end Sys2Proof.Machine
end

section
/-! CEVAL of an initialised classifier (42_classifier.md R140, R143): one classification step, answered with the state after it. -/

namespace Sys2Proof.Machine

theorem exec_ceval {s : State} (initialised : s.cvalid = true) (v : Int) :
    exec (.ceval v) s = .next (respond .ok false (classifyNext v s) 0 0 (classify v s)) := by
  simp only [exec, execCeval, if_pos initialised, classify_cstate]

/-- Settles O21: the step writes CSTATE alone, and where it moves is `classifyNext` from each of the two states. -/
theorem cevalMovesStateAtInclusiveThresholds : Obligations.CevalMovesStateAtInclusiveThresholds := by
  unfold Obligations.CevalMovesStateAtInclusiveThresholds
  intro v s initialised
  exact ⟨_, exec_ceval initialised v, rfl,
    fun isSafe => (classifyNext_of_safe v isSafe).1, fun isSafe => (classifyNext_of_safe v isSafe).2,
    fun isUnsafe => (classifyNext_of_unsafe v isUnsafe).1, fun isUnsafe => (classifyNext_of_unsafe v isUnsafe).2,
    by simp, by simp, by simp, by simp, by simp⟩

end Sys2Proof.Machine
end

section
/-! NOP (43_pipeline_and_control.md R162). -/

namespace Sys2Proof.Machine

theorem decodeWord_nop (b a : BitVec 16) : decodeWord (cmdWord 0x00#8 b a) = .ok .nop := by
  simp [decodeWord]

theorem exec_nop (s : State) : exec .nop s = .next (respond .ok false s.cstate 0 0 s) := rfl

/-- CSTATE is bit 34 of NOP's response, and every other bit is 0. -/
theorem responseWord_ok_empty (c : CState) : responseWord .ok false c 0 0 = c.bit.zeroExtend 40 <<< 34 := by
  cases c <;> decide

/-- Settles O31: the decoder looks at OP alone, and the response carries nothing but CSTATE. -/
theorem nopOnlyReportsTheState : Obligations.NopOnlyReportsTheState := by
  unfold Obligations.NopOnlyReportsTheState
  refine ⟨fun a b => decodeWord_nop b a, by decide, fun s => ⟨_, exec_nop s, rfl, fun inSafe => ?_, fun inUnsafe => ?_⟩⟩
  · rw [respond_rspq, responseWord_ok_empty, inSafe]
    decide
  · rw [respond_rspq, responseWord_ok_empty, inUnsafe]
    decide

end Sys2Proof.Machine
end

section
/-! The errors (60_exceptions.md): a failing command changes ERRF alone and responds bare (R203), and only reset clears an ERRF
bit (R202). -/

namespace Sys2Proof.Machine

/-! ## The status of a raised error (R201) -/

/-- STATUS is wide enough for the number of an error. -/
theorem error_status_toNat (e : ErrorKind) : (BitVec.ofNat 4 (Status.err e).code).toNat = e.code := by cases e <;> decide

theorem errorCode_pos (e : ErrorKind) : 1 ≤ e.code := by cases e <;> decide

theorem errorCode_le_five (e : ErrorKind) : e.code ≤ 5 := code_le_five (.err e)

/-- Setting bits clears none: absorption, bit by bit. -/
theorem flags_and_flags_or (flags new : BitVec 5) : flags &&& (flags ||| new) = flags := by
  ext i
  rw [BitVec.getElem_and, BitVec.getElem_or]
  exact inf_sup_self

/-! ## What a command word does to ERRF -/

/-- A command that completes does not write ERRF. -/
@[simp] theorem effect_errf (i : Instr) (s : State) : (effect i s).errf = s.errf := by
  cases i <;> simp [effect]

/-- A word ends in one raised error, or with OK and ERRF as it was. -/
theorem runWord_raises_or_ok {w : CmdWord} {s t : State} (h : runWord w s = .next t) :
    (∃ e, t = raiseError e s) ∨ (rspStatus t.rspq = 0#4 ∧ t.errf = s.errf) := by
  obtain ⟨i, -, run⟩ | ⟨_, -, run⟩ := runWord_cases w s
  · obtain ⟨e, -, raised⟩ | ⟨-, d1, d0, rfl⟩ := exec_cases (run.symm.trans h)
    · exact .inl ⟨e, raised⟩
    · exact .inr (by simp)
  · cases run.symm.trans h
    exact .inl ⟨.illegal, rfl⟩

/-- Settles O32: what fails is exactly what raises an error, and `raiseError` writes ERRF and the bare response alone. -/
theorem errorsArePreciseAndRecorded : Obligations.ErrorsArePreciseAndRecorded := by
  unfold Obligations.ErrorsArePreciseAndRecorded
  intro w s t h
  obtain ⟨e, rfl⟩ | ⟨ok, kept⟩ := runWord_raises_or_ok h
  · refine ⟨fun ok => ?_, fun _ => ⟨e.code, errorCode_pos e, errorCode_le_five e, ?_, rfl, by simp⟩⟩
    · exact absurd (by simpa using ok) (error_status_ne_zero e)
    · simpa using error_status_toNat e
  · exact ⟨fun _ => kept, fun failed => absurd ok failed⟩

/-! ## What an edge does to ERRF -/

/-- An edge without reset executes a word that raises an error and sets its bit, or keeps ERRF; a word executed then ended OK. -/
theorem step_errf {s t : State} (h : step s = .next t) (running : (pinsNow s).rst = false) :
    (∃ w e, s.phase = .busy w 0 ∧ rspStatus t.rspq = BitVec.ofNat 4 (Status.err e).code ∧ t.errf = s.errf ||| e.errfBit) ∨
    (t.errf = s.errf ∧ ∀ w, s.phase = .busy w 0 → rspStatus t.rspq = 0#4) := by
  obtain ⟨reset, -⟩ |
    ⟨-, ⟨idle, -, edge⟩ | ⟨_, _, waiting, edge⟩ | ⟨w, u, due, run, -, edge⟩ | ⟨resp, -, edge⟩ | ⟨noMove, edge⟩⟩ := step_cases s
  · simp [running] at reset
  all_goals cases edge.symm.trans h
  · exact .inr (by simp [idle])
  · exact .inr (by simp [waiting])
  · obtain ⟨e, rfl⟩ | ⟨ok, kept⟩ := runWord_raises_or_ok run
    · exact .inl ⟨w, e, due, by simp⟩
    · exact .inr ⟨kept, fun _ _ => ok⟩
  · exact .inr (by simp [resp])
  · obtain ⟨idle, -⟩ | ⟨resp, -⟩ := noMove
    · exact .inr (by simp [idle])
    · exact .inr (by simp [resp])

/-- A reset edge clears every bit of ERRF (R35). -/
theorem step_errf_of_reset {s t : State} (h : step s = .next t) (reset : (pinsNow s).rst = true) : t.errf = 0#5 := by
  obtain ⟨-, edge⟩ | ⟨running, -⟩ := step_cases s
  · cases edge.symm.trans h
    rfl
  · simp [reset] at running

/-- Settles O33: without reset an edge sets the bit of the error it raises or writes no bit, and setting a bit clears none. -/
theorem errorFlagsAreStickyUntilReset : Obligations.ErrorFlagsAreStickyUntilReset := by
  unfold Obligations.ErrorFlagsAreStickyUntilReset
  intro s t h
  refine ⟨step_errf_of_reset h, fun running => ?_⟩
  obtain ⟨w, e, due, status, set⟩ | ⟨kept, okIfDue⟩ := step_errf h running
  · have number : (rspStatus t.rspq).toNat = e.code := by rw [status, error_status_toNat]
    refine ⟨by rw [set, flags_and_flags_or], fun notDue => absurd due (notDue w), fun _ _ ok => ?_, fun _ _ _ => ?_⟩
    · exact absurd (status.symm.trans ok) (error_status_ne_zero e)
    · rw [number]
      exact ⟨errorCode_le_five e, set⟩
  · exact ⟨by rw [kept, BitVec.and_self], fun _ => kept, fun _ _ _ => kept, fun _ due failed => absurd (okIfDue _ due) failed⟩

end Sys2Proof.Machine
end

section
/-! The block reset (70_reset_and_hazards.md R230, R231): what a reset edge leaves, and the two ports while rst = 1. -/

namespace Sys2Proof.Machine

/-! ## The state a reset edge leaves -/

/-- Of the six moves of an edge only the reset has rst = 1, and it looks at no phase. -/
theorem step_of_reset {s : State} (reset : (pinsNow s).rst = true) : step s = .next (blockReset (consume s)) := by
  obtain ⟨-, edge⟩ | ⟨running, -⟩ := step_cases s
  · exact edge
  · simp [reset] at running

/-- A block reset keeps only the host's coming moves and the free value's counter, which are no registers. -/
@[simp] theorem registersOf_blockReset (s : State) : registersOf (blockReset s) = State.reset := rfl

@[simp] theorem blockReset_phase (s : State) : (blockReset s).phase = .idle := rfl

/-! ## The ports while rst = 1 -/

@[simp] theorem cmdReady_of_reset (s : State) : cmdReady true s = false := rfl

@[simp] theorem rspValid_of_reset (s : State) : rspValid true s = false := rfl

/-- Settles O36: a reset edge is a block reset in whatever phase, and rst = 1 gates both ports. -/
theorem resetEdgeRestoresEveryRegister : Obligations.ResetEdgeRestoresEveryRegister := by
  unfold Obligations.ResetEdgeRestoresEveryRegister
  intro s reset
  have edge := step_of_reset reset
  exact ⟨⟨blockReset (consume s), edge, registersOf_blockReset _, blockReset_phase _⟩, cmdReady_of_reset s, rspValid_of_reset s⟩

end Sys2Proof.Machine
end

section
/-! The command word in both directions (30_encoding.md R70 to R79), its transport bytes (20_memory.md R51), and the fields of the
response word (30_encoding.md R76). -/

namespace Sys2Proof.Machine

/-! ## Operands and their fields (R72, R79) -/

/-- An unsigned operand in range is read back from its field. -/
theorem zext16_fieldOfUnsigned {n : Nat} (fits : inUnsigned16 n = true) : zext16 (fieldOfUnsigned n) = n := by
  have small : n < 2 ^ 16 := Nat.lt_succ_of_le (of_decide_eq_true fits)
  rw [zext16, fieldOfUnsigned, BitVec.toNat_ofNat, Nat.mod_eq_of_lt small]

theorem inSigned16_iff (i : Int) : inSigned16 i = true ↔ -32768 ≤ i ∧ i ≤ 32767 := by simp [inSigned16]

/-- A signed operand in range is read back from its field. -/
theorem sext16_fieldOfSigned {i : Int} (fits : inSigned16 i = true) : sext16 (fieldOfSigned i) = i := by
  obtain ⟨low, high⟩ := (inSigned16_iff i).mp fits
  exact sext16_bits16 low high

@[simp] theorem fieldOfUnsigned_unsignedA (w : CmdWord) : fieldOfUnsigned (unsignedA w) = aField w := by
  simp [fieldOfUnsigned, unsignedA, zext16]

@[simp] theorem fieldOfSigned_signedA (w : CmdWord) : fieldOfSigned (signedA w) = aField w := bits16_sext16 _

@[simp] theorem fieldOfSigned_signedB (w : CmdWord) : fieldOfSigned (signedB w) = bField w := bits16_sext16 _

/-! ## Decoding what was encoded -/

/-- The opcode map is read as it was written, and each operand comes back from its field. -/
theorem decodeWord_encode {i : Instr} (fits : i.wellFormed = true) : decodeWord (encode i) = .ok i := by
  cases i with
  | nop | frst => rfl
  | conv n | proc n | rdreg n =>
    simp [decodeWord, encode, opcode, operandA, operandB, unsignedA, zext16_fieldOfUnsigned fits]
  | fupd x | ceval x =>
    simp [decodeWord, encode, opcode, operandA, operandB, signedA, sext16_fieldOfSigned fits]
  | cinit high low =>
    obtain ⟨highFits, lowFits⟩ := Bool.and_eq_true_iff.mp fits
    simp [decodeWord, encode, opcode, operandA, operandB, signedA, signedB, sext16_fieldOfSigned highFits,
      sext16_fieldOfSigned lowFits]

/-- A word's five bytes decode as the word (R51). -/
theorem decodeBytes_bytesOfWord (w : CmdWord) : decodeBytes (bytesOfWord w) = decodeWord w := by
  rw [bytesOfWord, decodeBytes, wordOfBytes_wordByte]

/-- Settles O1: the decoder undoes the encoder on the word, and the word's bytes decode as the word. -/
theorem decodeOfEncodeIsTheCommand : Obligations.DecodeOfEncodeIsTheCommand := by
  unfold Obligations.DecodeOfEncodeIsTheCommand
  intro i fits
  have word := decodeWord_encode fits
  exact ⟨word, (decodeBytes_bytesOfWord _).trans word⟩

/-! ## Encoding what was decoded -/

/-- A mask acts on each field alone. -/
theorem cmdWord_and (op op' : BitVec 8) (b b' a a' : BitVec 16) :
    cmdWord op b a &&& cmdWord op' b' a' = cmdWord (op &&& op') (b &&& b') (a &&& a') := by
  rw [cmdWord, cmdWord, BitVec.and_append, BitVec.and_append, cmdWord]

/-- A word under the mask of its used bits is OP and the fields that OP uses (R75). -/
theorem and_cmdWord_mask {w : CmdWord} {op : BitVec 8} (isOp : opField w = op) (b a : BitVec 16) :
    w &&& cmdWord 0xFF#8 b a = cmdWord op (bField w &&& b) (aField w &&& a) := by
  have all : op &&& 0xFF#8 = op := BitVec.and_allOnes
  conv_lhs => rw [← cmdWord_fields w, isOp, cmdWord_and, all]

/-- Re-encoding a decoded command keeps OP and the fields its operation uses, and clears the others. -/
theorem encode_of_decodeWord {w : CmdWord} {i : Instr} (decoded : decodeWord w = .ok i) :
    encode i = w &&& usedBits (opField w) := by
  have keep (v : BitVec 16) : v &&& 0xFFFF#16 = v := BitVec.and_allOnes
  have clear (v : BitVec 16) : v &&& 0x0000#16 = 0#16 := BitVec.and_zero
  have noField : (0xFF00000000#40 : BitVec 40) = cmdWord 0xFF#8 0x0000#16 0x0000#16 := by decide
  have onlyA : (0xFF0000FFFF#40 : BitVec 40) = cmdWord 0xFF#8 0x0000#16 0xFFFF#16 := by decide
  have both : (0xFFFFFFFFFF#40 : BitVec 40) = cmdWord 0xFF#8 0xFFFF#16 0xFFFF#16 := by decide
  obtain ⟨op, row⟩ | ⟨op, row⟩ | ⟨op, row⟩ | ⟨op, row⟩ | ⟨op, row⟩ | ⟨op, row⟩ | ⟨op, row⟩ | ⟨op, row⟩ | ⟨-, row⟩ := decodeWord_cases w
  case inr.inr.inr.inr.inr.inr.inr.inr => cases row.symm.trans decoded
  all_goals
    cases row.symm.trans decoded
    simp [encode, opcode, operandA, operandB, usedBits, noField, onlyA, both, and_cmdWord_mask op, keep, clear, op]

/-- Settles O2: what decodes is in range, and encoding it again clears the fields its operation ignores. -/
theorem reencodingClearsOnlyIgnoredFields : Obligations.ReencodingClearsOnlyIgnoredFields := by
  unfold Obligations.ReencodingClearsOnlyIgnoredFields
  exact fun w i decoded => ⟨decodeWord_wellFormed decoded, encode_of_decodeWord decoded⟩

/-- Settles O5: nine words of the opcode map, decoded by evaluation. -/
theorem sampleWordsDecodeAsTheMapSays : Obligations.SampleWordsDecodeAsTheMapSays := by
  unfold Obligations.SampleWordsDecodeAsTheMapSays
  decide

/-! ## Transport bytes (R51) -/

/-- Byte `k` stands at place `k`. -/
theorem bytesOfWord_getElem? {k : Nat} (inside : k < 5) (w : BitVec 40) : (bytesOfWord w)[k]? = some (wordByte w k) := by
  match k, inside with
  | 0, _ | 1, _ | 2, _ | 3, _ | 4, _ => rfl

theorem wordByte_getLsbD {j : Nat} (inside : j < 8) (w : BitVec 40) (k : Nat) :
    (wordByte w k).getLsbD j = w.getLsbD (8 * k + j) := by
  simp [wordByte, inside]

/-- Settles O6: each place of the five holds its byte, and a byte is eight consecutive bits of the word. -/
theorem transportBytesAreLittleEndian : Obligations.TransportBytesAreLittleEndian := by
  unfold Obligations.TransportBytesAreLittleEndian
  exact fun w => ⟨rfl, fun k j place bit => ⟨_, bytesOfWord_getElem? place w, wordByte_getLsbD bit w k⟩, decodeBytes_bytesOfWord w⟩

/-! ## The response word (R76) -/

theorem stateBit_eq_one_iff (c : CState) : c.bit = 1#1 ↔ c = .Unsafe := by cases c <;> decide

/-- A status fits the four bits of its field (R201). -/
theorem code_lt_sixteen (st : Status) : st.code < 16 := (code_le_five st).trans_lt (by decide)

/-- Settles O7: each field's lemma gives the argument, and a one-bit flag is 1 for one value of its argument. -/
theorem responseWordCarriesItsFields : Obligations.ResponseWordCarriesItsFields := by
  unfold Obligations.ResponseWordCarriesItsFields
  intro status ready state d1 d0
  simp [code_lt_sixteen, flagBit_eq_one_iff, stateBit_eq_one_iff, bits16]

end Sys2Proof.Machine
end

section
/-! CINIT and PROC that complete (42_classifier.md R142, 43_pipeline_and_control.md R160), as one equation each. -/

namespace Sys2Proof.Machine

theorem exec_cinit {high low : Int} {s : State} (unset : s.cvalid = false) (ordered : low ≤ high) :
    exec (.cinit high low) s = .next (respond .ok false .Safe 0 0 (startClassifier high low s)) := by
  simp only [exec, execCinit, unset, Bool.false_eq_true, if_false, if_neg (Int.not_lt.mpr ordered)]

theorem exec_proc {s : State} (initialised : s.cvalid = true) (raw : Nat) :
    exec (.proc raw) s =
      .next (respond .ok (filterReady (filterUpdate (convert raw) s)) (effect (.proc raw) s).cstate
        (smoothedField (filterUpdate (convert raw) s)) (convert raw) (effect (.proc raw) s)) := by
  simp only [exec, execProc, initialised, if_true, effect]

/-- CEVAL and PROC are refused while CVALID = 0 and only then (R143, R160). -/
theorem refusal_classifying_eq_none {i : Instr} {s : State} (classifies : (∃ v, i = .ceval v) ∨ ∃ raw, i = .proc raw)
    (accepted : refusal i s = none) : s.cvalid = true := by
  obtain ⟨v, rfl⟩ | ⟨raw, rfl⟩ := classifies <;> simpa [refusal] using accepted

end Sys2Proof.Machine
end

section
/-! What of a state a command reads and writes (10_state.md R33, 70_reset_and_hazards.md R240): the registers, and never the
handshake or the host side. -/

namespace Sys2Proof.Machine

/-! ## Registers beside a host side -/

/-- The registers of `s` beside the handshake and the host side of `h`. -/
def onHost (h s : State) : State :=
  { s with phase := h.phase, inputs := h.inputs, executed := h.executed, taken := h.taken, latTick := h.latTick }

/-- A state is its registers beside its own host side. -/
theorem onHost_of_registersOf {s s' : State} (same : registersOf s = registersOf s') : onHost s' s = s' :=
  show onHost s' (registersOf s) = s' by
    rw [same]
    rfl

/-! ## Commands -/

theorem refusal_onHost (i : Instr) (h s : State) : refusal i (onHost h s) = refusal i s := by cases i <;> rfl

theorem filterUpdate_onHost (x : Int) (h s : State) : filterUpdate x (onHost h s) = onHost h (filterUpdate x s) := by
  unfold filterUpdate
  rw [apply_dite (onHost h)]
  rfl

theorem classifyWhenReady_onHost (h s : State) : classifyWhenReady (onHost h s) = onHost h (classifyWhenReady s) := by
  have view : smoothed (onHost h s) = smoothed s := rfl
  unfold classifyWhenReady
  rw [view]
  split <;> rfl

/-- A command that completes does the same thing to the registers beside any host side. -/
theorem exec_onHost_of_accepted {i : Instr} {s t : State} (accepted : refusal i s = none) (run : exec i s = .next t) (h : State) :
    exec i (onHost h s) = .next (onHost h t) := by
  cases i with
  | nop | conv _ | frst =>
    cases run
    rfl
  | fupd x =>
    cases run
    rw [exec_fupd, filterUpdate_onHost]
    rfl
  | cinit high low =>
    obtain ⟨unset, ordered⟩ := refusal_cinit_eq_none accepted
    cases (exec_cinit unset ordered).symm.trans run
    exact exec_cinit unset ordered
  | ceval v =>
    have initialised := refusal_classifying_eq_none (.inl ⟨v, rfl⟩) accepted
    cases (exec_ceval initialised v).symm.trans run
    exact exec_ceval (s := onHost h s) initialised v
  | proc raw =>
    have initialised := refusal_classifying_eq_none (.inr ⟨raw, rfl⟩) accepted
    cases (exec_proc initialised raw).symm.trans run
    rw [exec_proc (s := onHost h s) initialised, effect, filterUpdate_onHost, classifyWhenReady_onHost]
    rfl
  | rdreg index =>
    have view : value32 index (onHost h s) = value32 index s := rfl
    cases found : value32 index s with
    | some v =>
      cases (exec_rdreg_of_some found).symm.trans run
      exact exec_rdreg_of_some (view.trans found)
    | none => simp [refusal, found] at accepted

theorem exec_onHost {i : Instr} {s t : State} (run : exec i s = .next t) (h : State) :
    exec i (onHost h s) = .next (onHost h t) := by
  cases outcome : refusal i s with
  | some e =>
    cases (exec_of_refused outcome).symm.trans run
    exact exec_of_refused ((refusal_onHost i h s).trans outcome)
  | none => exact exec_onHost_of_accepted outcome run h

theorem runWord_onHost {w : CmdWord} {s t : State} (run : runWord w s = .next t) (h : State) :
    runWord w (onHost h s) = .next (onHost h t) := by
  unfold runWord at run ⊢
  split at run
  · exact exec_onHost run h
  · cases run
    rfl

/-- Words run from equal registers leave equal registers, the response among them. -/
theorem runWord_of_registersOf {w : CmdWord} {s s' t : State} (same : registersOf s = registersOf s')
    (run : runWord w s = .next t) : runWord w s' = .next (onHost s' t) := by
  have beside := runWord_onHost run s'
  rwa [onHost_of_registersOf same] at beside

/-- Settles O44: a run from the one state, put beside the other's host side, is the run from the other. -/
theorem onlyRegistersAffectACommand : Obligations.OnlyRegistersAffectACommand := by
  unfold Obligations.OnlyRegistersAffectACommand
  intro w s s' same
  obtain ⟨t, run, -⟩ := runWord_next w s
  exact ⟨t, onHost s' t, run, runWord_of_registersOf same run, rfl, rfl⟩

/-- Settles O45: by what a word and an edge can do, each of which ends in a next state. -/
theorem everyStepHasANextState : Obligations.EveryStepHasANextState := by
  unfold Obligations.EveryStepHasANextState
  refine ⟨fun w s => ?_, step_next⟩
  obtain ⟨t, run, -⟩ := runWord_next w s
  exact ⟨t, run⟩

end Sys2Proof.Machine
end

section
/-! The history of a block (20_memory.md R56, 70_reset_and_hazards.md R237, R241): every edge keeps the registers and the responses
the fold of the command rules over the commands executed since the last reset. -/

namespace Sys2Proof.Machine

/-! ## The fold of the command rules -/

/-- `t`, which the word `w` has left, with the word and its response in the host's records (R237). -/
def recorded (w : CmdWord) (t : State) : State := { t with executed := t.executed ++ [w], taken := t.taken ++ [t.rspq] }

theorem transact_of_runWord {w : CmdWord} {s t : State} (run : runWord w s = .next t) : transact w s = .next (recorded w t) := by
  simp only [transact, run, recorded]

/-- The fold over one more command. -/
theorem transactAll_concat {ws : List CmdWord} {w : CmdWord} {s t u : State} (fold : transactAll ws s = .next t)
    (last : transact w t = .next u) : transactAll (ws ++ [w]) s = .next u := by
  induction ws generalizing s with
  | nil =>
    cases fold
    simp [transactAll, last]
  | cons v ws ih =>
    obtain ⟨m, run, -⟩ := runWord_next v s
    simp only [List.cons_append, transactAll, transact_of_runWord run] at fold ⊢
    exact ih fold

/-! ## Edges -/

theorem answered_of_resp {s : State} (resp : s.phase = .resp) : answered s = s.taken ++ [s.rspq] := if_pos resp

theorem answered_of_not_resp {s : State} (other : s.phase ≠ .resp) : answered s = s.taken := if_neg other

/-- An edge that executes nothing and leaves the registers and the responses answered keeps the history. -/
theorem FollowsHistory.of_same {s t : State} (history : FollowsHistory s) (registers : registersOf t = registersOf s)
    (executed : t.executed = s.executed) (answers : answered t = answered s) : FollowsHistory t := by
  obtain ⟨u, fold, sameRegisters, sameAnswers⟩ := history
  exact ⟨u, executed ▸ fold, registers.trans sameRegisters, answers.trans sameAnswers⟩

/-- Executing a word and presenting its response is one more command of the fold. -/
theorem FollowsHistory.present {s t : State} {w : CmdWord} (history : FollowsHistory s) (unanswered : s.phase ≠ .resp)
    (run : runWord w s = .next t) (same : SameHostSide s t) : FollowsHistory (present w t) := by
  obtain ⟨u, fold, registers, answers⟩ := history
  obtain ⟨-, -, executed, taken, -⟩ := same
  have onFold := runWord_of_registersOf registers run
  refine ⟨recorded w (onHost u t), ?_, rfl, ?_⟩
  · rw [present_executed, executed]
    exact transactAll_concat fold (transact_of_runWord onFold)
  · rw [answered_of_not_resp unanswered] at answers
    rw [answered_of_resp rfl, present_taken, taken, answers]
    rfl

theorem followsHistory_blockReset (s : State) : FollowsHistory (blockReset s) := ⟨State.reset, rfl, rfl, rfl⟩

/-- Settles O48: a reset edge empties the history, the executing edge adds its command, every other edge adds none. -/
theorem everyStepFollowsTheHistory : Obligations.EveryStepFollowsTheHistory := by
  unfold Obligations.EveryStepFollowsTheHistory
  intro s t history h
  have before : FollowsHistory (consume s) := history.of_same rfl rfl rfl
  obtain ⟨-, edge⟩ |
    ⟨-, ⟨idle, -, edge⟩ | ⟨_, _, busy, edge⟩ | ⟨w, u, due, run, same, edge⟩ | ⟨resp, -, edge⟩ | ⟨-, edge⟩⟩ := step_cases s
  all_goals cases edge.symm.trans h
  · exact followsHistory_blockReset _
  · exact history.of_same rfl rfl (by simp [answered, idle])
  · exact history.of_same rfl rfl (by simp [answered, busy])
  · exact before.present (by simp [due]) run same
  · exact history.of_same rfl rfl (by simp [answered, resp])
  · exact before

/-- Settles O49: at reset no command has been executed and the fold over none is the reset state. -/
theorem resetFollowsTheHistory : Obligations.ResetFollowsTheHistory := by
  unfold Obligations.ResetFollowsTheHistory
  exact ⟨State.reset, rfl, rfl, rfl⟩

/-! ## The end of a run -/

/-- What every edge keeps holds after any number of edges. -/
theorem run_keeps {P : State → Prop} (edge : ∀ s t, P s → step s = .next t → P t) (n : Nat) {s u : State} (start : P s)
    (run : Host.Core.run core n s = .next u) : P u := by
  induction n generalizing s with
  | zero =>
    cases run
    exact start
  | succ n ih =>
    obtain ⟨t, first⟩ := step_next s
    exact ih (edge s t start first) ((run_succ n first).symm.trans run)

theorem runEnded_iff (commands : List CmdWord) (s : State) :
    runEnded commands s = true ↔ s.executed = commands ∧ s.taken.length = commands.length ∧ s.phase = .idle := by
  simp [runEnded, and_assoc]

/-- Settles O54: the history holds at the end of the run, and in IDLE every response answered has been taken. -/
theorem everyEndedRunIsObservedAsTheFold : Obligations.EveryEndedRunIsObservedAsTheFold := by
  unfold Obligations.EveryEndedRunIsObservedAsTheFold
  intro commands edges s u history run ended
  obtain ⟨t, fold, registers, answers⟩ := run_keeps everyStepFollowsTheHistory edges history run
  obtain ⟨executed, count, idle⟩ := (runEnded_iff commands u).mp ended
  rw [answered_of_not_resp (by simp [idle])] at answers
  exact ⟨t, executed ▸ fold, congrArg₂ Prod.mk answers registers, count⟩

end Sys2Proof.Machine
end

section
/-! The Smoothing Filter's invariant and what follows from it (41_filter.md R128 to R130): the sum of the ring, its bounds, the
order of the resident samples, and the filter reset. -/

namespace Sys2Proof.Machine

/-! ## The ring's sum -/

/-- Overwriting a slot takes its sample out of the sum and adds the new one. -/
theorem sum_set (b : SampleRing) (i : Fin 5) (v : BitVec 16) : (b.set i v).sum = b.sum - sext16 (b.get i) + sext16 v := by
  simp only [SampleRing.sum]
  match i with
  | 0 | 1 | 2 | 3 | 4 => simp only [SampleRing.set, SampleRing.get]; omega

/-- The sum is the sum of the five slots as they are read. -/
theorem sum_eq_slots (b : SampleRing) :
    b.sum = sext16 (b.get 0) + sext16 (b.get 1) + sext16 (b.get 2) + sext16 (b.get 3) + sext16 (b.get 4) := rfl

/-- Samples between two bounds have a sum between five times the bounds. -/
theorem sum_bounds {b : SampleRing} {lo hi : Int} (each : ∀ i, lo ≤ sext16 (b.get i) ∧ sext16 (b.get i) ≤ hi) :
    5 * lo ≤ b.sum ∧ b.sum ≤ 5 * hi := by
  have s0 := each 0
  have s1 := each 1
  have s2 := each 2
  have s3 := each 3
  have s4 := each 4
  rw [sum_eq_slots]
  omega

/-- Whatever the slots hold, the sum fits FSUM (R128). -/
theorem sum_range (b : SampleRing) : -163840 ≤ b.sum ∧ b.sum ≤ 163835 :=
  sum_bounds fun i => sext16_bounds (b.get i)

/-- So does the sum without one of the samples (R128). -/
theorem sum_sub_get_range (b : SampleRing) (i : Fin 5) :
    -163840 ≤ b.sum - sext16 (b.get i) ∧ b.sum - sext16 (b.get i) ≤ 163835 := by
  have without := sum_set b i 0#16
  rw [show sext16 0#16 = 0 from rfl, add_zero] at without
  exact without ▸ sum_range (b.set i 0#16)

/-- The truncated fifth of a number lies between the fifths of its bounds. -/
theorem tdiv_five_bounds {a lo hi : Int} (above : 5 * lo ≤ a) (below : a ≤ 5 * hi) : lo ≤ tdiv a 5 ∧ tdiv a 5 ≤ hi := by
  have spec := tdiv_five_spec a
  omega

/-! ## The invariant -/

/-- While warming up the write position is a slot not written since the filter reset (R26). -/
theorem FilterInv.get_fidx_eq_zero {s : State} (inv : FilterInv s) (warm : s.fcount.val < 5) : s.fbuf.get s.fidx = 0#16 :=
  inv.unwritten_zero warm s.fidx (inv.index_eq warm).ge

/-- Taking one sample out of a sum and adding another, in 32 bits and as integers (R122). -/
theorem bits32_sub_add (v : BitVec 32) (old : BitVec 16) (x : Int) :
    bits32 (sext32 v - sext16 old + x) = v - old.signExtend 32 + BitVec.ofInt 32 x := by
  simp only [bits32, sext32, Int.sub_eq_add_neg, BitVec.ofInt_add, BitVec.ofInt_neg, BitVec.ofInt_toInt, BitVec.sub_eq_add_neg]
  rfl

/-- Both branches of the update take the slot they overwrite out of the sum: in warm-up it holds 0 (R24). -/
theorem FilterInv.filterUpdate_fsum {s : State} (inv : FilterInv s) (x : Int) :
    (filterUpdate x s).fsum = bits32 (s.fbuf.sum - sext16 (s.fbuf.get s.fidx) + x) := by
  have count := s.fcount.isLt
  rw [← inv.sum_eq, bits32_sub_add]
  by_cases warm : s.fcount.val < 5
  · rw [filterUpdate_fsum_warm x s warm, inv.get_fidx_eq_zero warm, show (0#16).signExtend 32 = 0#32 from rfl, BitVec.sub_zero]
  · exact filterUpdate_fsum_steady x s (by omega)

/-- So FSUM is the sum of the ring after the update, which fits it (R27, R128). -/
theorem FilterInv.filterUpdate_sum {s : State} (inv : FilterInv s) {x : Int} (low : -32768 ≤ x) (high : x ≤ 32767) :
    sext32 (filterUpdate x s).fsum = (filterUpdate x s).fbuf.sum := by
  have ring : (filterUpdate x s).fbuf.sum = s.fbuf.sum - sext16 (s.fbuf.get s.fidx) + x := by
    rw [filterUpdate_fbuf, sum_set, sext16_bits16 low high]
  have range := sum_range (filterUpdate x s).fbuf
  rw [inv.filterUpdate_fsum, ← ring]
  exact sext32_bits32 (by omega) (by omega)

/-- The update keeps the filter invariant. -/
theorem FilterInv.filterUpdate {s : State} (inv : FilterInv s) {x : Int} (low : -32768 ≤ x) (high : x ≤ 32767) :
    FilterInv (filterUpdate x s) := by
  have count := filterUpdate_fcount x s
  have advance : (Machine.filterUpdate x s).fidx.val = (s.fidx.val + 1) % 5 := by rw [filterUpdate_fidx, nextIndex_val]
  have warm (still : (Machine.filterUpdate x s).fcount.val < 5) : s.fcount.val < 5 := by omega
  refine ⟨inv.filterUpdate_sum low high, fun still => ?_, fun still i unwritten => ?_⟩
  · have index := inv.index_eq (warm still)
    change _ < 5 at still
    omega
  · have index := inv.index_eq (warm still)
    rw [filterUpdate_get, if_neg (by rintro rfl; omega)]
    exact inv.unwritten_zero (warm still) i (by omega)

/-- A filter just reset meets the invariant. -/
theorem filterInv_of_cleared {s : State} (fbuf : s.fbuf = SampleRing.zero) (fsum : s.fsum = 0#32) (fcount : s.fcount = 0)
    (fidx : s.fidx = 0) : FilterInv s where
  sum_eq := by
    rw [fsum, fbuf]
    rfl
  index_eq _ := by rw [fidx, fcount]; rfl
  unwritten_zero _ i _ := by rw [fbuf, get_zero]

/-- The invariant speaks of the filter registers alone. -/
theorem FilterInv.of_same {s t : State} (inv : FilterInv s) (fbuf : t.fbuf = s.fbuf) (fsum : t.fsum = s.fsum)
    (fcount : t.fcount = s.fcount) (fidx : t.fidx = s.fidx) : FilterInv t where
  sum_eq := by rw [fsum, fbuf, inv.sum_eq]
  index_eq := by rw [fcount, fidx]; exact inv.index_eq
  unwritten_zero := by rw [fcount, fbuf]; exact inv.unwritten_zero

/-- The smoothed value of any ring fits a 16-bit signed field (R128). -/
theorem FilterInv.tdiv_range {s : State} (inv : FilterInv s) : -32768 ≤ tdiv s.fsum.toInt 5 ∧ tdiv s.fsum.toInt 5 ≤ 32767 := by
  have sum : s.fsum.toInt = s.fbuf.sum := inv.sum_eq
  rw [sum]
  obtain ⟨above, below⟩ := sum_range s.fbuf
  exact tdiv_five_bounds above below

/-- The smoothed value of temperatures is a temperature (R128). -/
theorem FilterInv.tdiv_temperature {s : State} (inv : FilterInv s) (samples : SamplesInRange s) :
    -400 ≤ tdiv s.fsum.toInt 5 ∧ tdiv s.fsum.toInt 5 ≤ 1250 := by
  have sum : s.fsum.toInt = s.fbuf.sum := inv.sum_eq
  rw [sum]
  obtain ⟨above, below⟩ := sum_bounds samples
  exact tdiv_five_bounds above below

/-- Settles O18: FSUM is the ring's sum, and each bound is the bound of a sum of slots or of its fifth. -/
theorem filterArithmeticNeverOverflows : Obligations.FilterArithmeticNeverOverflows := by
  unfold Obligations.FilterArithmeticNeverOverflows
  intro s inv
  have sum : s.fsum.toInt = s.fbuf.sum := inv.sum_eq
  refine ⟨sum ▸ sum_range s.fbuf, fun i => sum ▸ sum_sub_get_range s.fbuf i, inv.tdiv_range, fun samples => ?_⟩
  exact ⟨sum ▸ sum_bounds samples, inv.tdiv_temperature samples⟩

/-! ## The division (R9) -/

/-- Settles O15: the library's truncating division is the model's, and the remainder has the dividend's sign. -/
theorem smoothingDivisionTruncatesTowardZero : Obligations.SmoothingDivisionTruncatesTowardZero := by
  unfold Obligations.SmoothingDivisionTruncatesTowardZero
  exact fun a => ⟨tdiv_eq_tdiv a 5, tdiv_five_spec a⟩

/-! ## The filter reset (R127, R130) -/

theorem exec_frst (s : State) :
    exec .frst s = .next (respond .ok false s.cstate 0 0 (filterClear s)) := rfl

/-- Settles O14: the clearing writes the four filter registers, and the response is bare. -/
theorem frstClearsTheFilterOnly : Obligations.FrstClearsTheFilterOnly := by
  unfold Obligations.FrstClearsTheFilterOnly
  exact fun s => ⟨_, exec_frst s, rfl, get_zero, by simp⟩

/-- Settles O16: both resets clear the filter, and the first update of a cleared filter counts to 1 and sums to its sample. -/
theorem firstUpdateAfterFilterReset : Obligations.FirstUpdateAfterFilterReset := by
  unfold Obligations.FirstUpdateAfterFilterReset
  intro x s u low high reset
  obtain ⟨fbuf, fsum, fcount, fidx⟩ : u.fbuf = SampleRing.zero ∧ u.fsum = 0#32 ∧ u.fcount = 0 ∧ u.fidx = 0 := by
    obtain frst | rfl := reset
    · cases (exec_frst s).symm.trans frst
      exact ⟨rfl, rfl, rfl, rfl⟩
    · exact ⟨rfl, rfl, rfl, rfl⟩
  have one : (filterUpdate x u).fcount.val = 1 := by
    rw [filterUpdate_fcount, fcount]
    rfl
  have sum : (filterUpdate x u).fsum = BitVec.ofInt 32 x := by
    rw [filterUpdate_fsum_warm x u (by rw [fcount]; decide), fsum, BitVec.zero_add]
  refine ⟨⟨fbuf, fsum, fcount, fidx⟩, _, exec_fupd x u, ?_, ?_, ?_, one⟩
  · simp [filterReady_eq_false (s := filterUpdate x u) (by omega)]
  · simp [smoothedField_warm (s := filterUpdate x u) (by omega)]
  · rw [respond_fsum, sum]
    exact sext32_bits32 (by omega) (by omega)

/-! ## The resident samples (R129) -/

/-- The samples of a full ring, oldest first, `i` being the write position. -/
theorem rotated_set (b : SampleRing) (i : Fin 5) (v : BitVec 16) :
    (b.set i v).toList.drop (nextIndex i).val ++ (b.set i v).toList.take (nextIndex i).val =
      (b.toList.drop i.val ++ b.toList.take i.val ++ [v]).drop 1 := by
  match i with
  | 0 | 1 | 2 | 3 | 4 => rfl

/-- Writing the first free slot appends to the written ones. -/
theorem take_succ_set (b : SampleRing) (i : Fin 5) (v : BitVec 16) :
    (b.set i v).toList.take (i.val + 1) = b.toList.take i.val ++ [v] := by
  match i with
  | 0 | 1 | 2 | 3 | 4 => rfl

@[simp] theorem length_toList (b : SampleRing) : b.toList.length = 5 := rfl

theorem residentSamples_warm {s : State} (warm : s.fcount.val < 5) : residentSamples s = s.fbuf.toList.take s.fcount.val := if_pos warm

theorem residentSamples_full {s : State} (full : s.fcount.val = 5) :
    residentSamples s = s.fbuf.toList.drop s.fidx.val ++ s.fbuf.toList.take s.fidx.val :=
  if_neg (by simp [full])

/-- As many samples are resident as FCOUNT says (R25). -/
theorem length_residentSamples (s : State) : (residentSamples s).length = s.fcount.val := by
  have count := s.fcount.isLt
  by_cases warm : s.fcount.val < 5
  · rw [residentSamples_warm warm, List.length_take, length_toList]
    omega
  · rw [residentSamples_full (by omega), List.length_append, List.length_drop, List.length_take, length_toList]
    omega

/-- Where the write position is FCOUNT modulo 5, the ring lies in order of age from slot 0 on. -/
theorem residentSamples_in_order {s : State} (index : s.fidx.val = s.fcount.val % 5) :
    residentSamples s = s.fbuf.toList.take s.fcount.val := by
  have count := s.fcount.isLt
  by_cases warm : s.fcount.val < 5
  · exact residentSamples_warm warm
  · have full : s.fcount.val = 5 := by omega
    rw [residentSamples_full full, index, full]
    rfl

/-- The update appends its sample, and a full filter drops its oldest (R129). -/
theorem FilterInv.residentSamples_filterUpdate {s : State} (inv : FilterInv s) (x : Int) :
    residentSamples (Machine.filterUpdate x s) = (residentSamples s ++ [bits16 x]).drop (s.fcount.val + 1 - 5) := by
  have count := s.fcount.isLt
  have after := filterUpdate_fcount x s
  by_cases warm : s.fcount.val < 5
  · have index := inv.index_eq warm
    have inOrder : (Machine.filterUpdate x s).fidx.val = (Machine.filterUpdate x s).fcount.val % 5 := by
      rw [filterUpdate_fidx, nextIndex_val]
      omega
    have noDrop : s.fcount.val + 1 - 5 = 0 := by omega
    have next : (Machine.filterUpdate x s).fcount.val = s.fidx.val + 1 := by omega
    rw [residentSamples_in_order inOrder, residentSamples_warm warm, noDrop, next, filterUpdate_fbuf, take_succ_set, index]
    rfl
  · have full : s.fcount.val = 5 := by omega
    rw [residentSamples_full (by omega), residentSamples_full full, filterUpdate_fbuf, filterUpdate_fidx, rotated_set, full]

theorem getElem_toList (b : SampleRing) (i : Fin 5) : b.toList[i.val]'i.isLt = b.get i := by
  match i with
  | 0 | 1 | 2 | 3 | 4 => rfl

theorem mem_drop_toList {b : SampleRing} {n : Nat} {v : BitVec 16} (mem : v ∈ b.toList.drop n) :
    ∃ i : Fin 5, n ≤ i.val ∧ b.get i = v := by
  obtain ⟨k, inside, rfl⟩ := List.mem_drop_iff_getElem.mp mem
  rw [length_toList] at inside
  exact ⟨⟨n + k, by omega⟩, Nat.le_add_right n k, (getElem_toList b _).symm⟩

/-- The slots that are not resident hold 0, so the resident samples have the ring's sum (R23, R27). -/
theorem FilterInv.sum_residentSamples {s : State} (inv : FilterInv s) :
    ((residentSamples s).map BitVec.toInt).sum = s.fbuf.sum := by
  have count := s.fcount.isLt
  have ring : (s.fbuf.toList.map BitVec.toInt).sum = s.fbuf.sum := by
    simp [SampleRing.toList, SampleRing.sum, sext16]
    ring
  have parts (n : Nat) := List.sum_take_add_sum_drop (s.fbuf.toList.map BitVec.toInt) n
  by_cases warm : s.fcount.val < 5
  · have rest : ((s.fbuf.toList.drop s.fcount.val).map BitVec.toInt).sum = 0 := by
      refine List.sum_eq_zero fun y mem => ?_
      obtain ⟨v, slot, rfl⟩ := List.mem_map.mp mem
      obtain ⟨i, unwritten, rfl⟩ := mem_drop_toList slot
      rw [inv.unwritten_zero warm i unwritten]
      rfl
    have cut := parts s.fcount.val
    rw [residentSamples_warm warm]
    rw [← List.map_take, ← List.map_drop] at cut
    omega
  · have cut := parts s.fidx.val
    rw [residentSamples_full (by omega), List.map_append, List.sum_append]
    rw [← List.map_take, ← List.map_drop] at cut
    omega

@[simp] theorem residentSamples_respond (st : Status) (rdy : Bool) (c : CState) (d1 d0 : Int) (s : State) :
    residentSamples (respond st rdy c d1 d0 s) = residentSamples s := rfl

/-- FUPD is never refused, so READY shows whether the filter is full (R123, R126). -/
theorem exec_fupd_ready_iff {x : Int} {s t : State} (run : exec (.fupd x) s = .next t) :
    rspReadyFlag t.rspq = 1#1 ↔ t.fcount.val = 5 := by
  simp [exec_readyFlag_iff run, feedsFilter, refusal]

/-- Settles O17: the update appends to the resident samples and drops the oldest of six; FSUM is their sum, whose fifth fits D0. -/
theorem filterKeepsTheFiveMostRecentSamples : Obligations.FilterKeepsTheFiveMostRecentSamples := by
  unfold Obligations.FilterKeepsTheFiveMostRecentSamples
  intro x s inv low high
  have after := inv.filterUpdate low high
  have sum : (filterUpdate x s).fsum.toInt = ((residentSamples (filterUpdate x s)).map BitVec.toInt).sum :=
    after.sum_eq.trans after.sum_residentSamples.symm
  have ready := exec_fupd_ready_iff (exec_fupd x s)
  refine ⟨_, exec_fupd x s, ?_, sum, ?_, fun isReady => ?_⟩
  · have one : (residentSamples s ++ [bits16 x]).length = s.fcount.val + 1 := by simp [length_residentSamples]
    rw [residentSamples_respond, inv.residentSamples_filterUpdate, ← one]
    rfl
  · rw [residentSamples_respond, length_residentSamples]
    exact ready
  · have fifth : tdiv (filterUpdate x s).fsum.toInt 5 = Int.tdiv (filterUpdate x s).fsum.toInt 5 := tdiv_eq_tdiv _ 5
    obtain ⟨lowFifth, highFifth⟩ := after.tdiv_range
    rw [residentSamples_respond, ← sum, ← fifth, respond_rspq, rspD0_responseWord,
      smoothedField_ready (s := filterUpdate x s) (ready.mp isReady)]
    exact sext16_bits16 lowFifth highFifth

end Sys2Proof.Machine
end

section
/-! The invariants of a good state (10_state.md R23 to R34, 30_encoding.md R76, 60_exceptions.md R203): what a command word and an
edge keep of each. -/

namespace Sys2Proof.Machine

/-! ## The filter (R26, R27) -/

/-- Every temperature fits a slot, so feeding the filter one keeps the invariant. -/
theorem FilterInv.filterUpdate_convert {s : State} (inv : FilterInv s) (raw : Nat) : FilterInv (Machine.filterUpdate (convert raw) s) := by
  obtain ⟨low, high⟩ := convert_bounds raw
  exact inv.filterUpdate (by omega : -32768 ≤ convert raw) (by omega)

/-- A command in range keeps the filter invariant: the samples it feeds fit a slot. -/
theorem FilterInv.effect {i : Instr} {s : State} (inv : FilterInv s) (fits : i.wellFormed = true) : FilterInv (effect i s) := by
  cases i with
  | nop | conv _ | rdreg _ => exact inv
  | cinit _ _ | ceval _ => exact inv.of_same rfl rfl rfl rfl
  | frst => exact filterInv_of_cleared rfl rfl rfl rfl
  | fupd x =>
    obtain ⟨low, high⟩ := (inSigned16_iff x).mp fits
    exact inv.filterUpdate low high
  | proc raw =>
    exact (inv.filterUpdate_convert raw).of_same (classifyWhenReady_fbuf _) (classifyWhenReady_fsum _) (classifyWhenReady_fcount _)
      (classifyWhenReady_fidx _)

/-! ## The classifier (R28, R29, R31) -/

/-- The invariant speaks of the classifier's registers alone. -/
theorem ClassifierInv.of_same {s t : State} (inv : ClassifierInv s) (same : SameThresholds s t) (cstate : t.cstate = s.cstate) :
    ClassifierInv t := by
  obtain ⟨high, low, valid⟩ := same
  constructor
  · rw [high, low, valid]
    exact inv.ordered
  · rw [high, low, valid, cstate]
    exact inv.untouched

/-- Once CVALID = 1 the classifier invariant does not speak of CSTATE. -/
theorem ClassifierInv.of_valid {s t : State} (inv : ClassifierInv s) (same : SameThresholds s t) (valid : s.cvalid = true) :
    ClassifierInv t := by
  obtain ⟨high, low, sameValid⟩ := same
  refine ⟨fun _ => ?_, fun unset => ?_⟩
  · rw [high, low]
    exact inv.ordered valid
  · simp [sameValid, valid] at unset

/-- A command in range that is not refused keeps the classifier invariant: a successful CINIT's thresholds are in order. -/
theorem ClassifierInv.effect {i : Instr} {s : State} (inv : ClassifierInv s) (fits : i.wellFormed = true)
    (accepted : refusal i s = none) : ClassifierInv (effect i s) := by
  cases i with
  | nop | conv _ | rdreg _ => exact inv
  | fupd _ | frst => exact inv.of_same (by simp [SameThresholds, Machine.effect]) (by simp [Machine.effect])
  | ceval v => exact inv.of_valid (by simp [SameThresholds, Machine.effect]) (refusal_classifying_eq_none (.inl ⟨v, rfl⟩) accepted)
  | proc raw =>
    exact inv.of_valid (by simp [SameThresholds, Machine.effect]) (refusal_classifying_eq_none (.inr ⟨raw, rfl⟩) accepted)
  | cinit high low =>
    obtain ⟨-, ordered⟩ := refusal_cinit_eq_none accepted
    obtain ⟨highFits, lowFits⟩ := Bool.and_eq_true_iff.mp fits
    refine ⟨fun _ => ?_, fun unset => nomatch unset⟩
    have high := sext16_fieldOfSigned highFits
    have low := sext16_fieldOfSigned lowFits
    change sext16 (fieldOfSigned _) ≤ sext16 (fieldOfSigned _)
    rwa [high, low]

/-! ## The response (R76, R201, R203, R34) -/

/-- What a response word is to be whatever the phase: RSV 0, a known STATUS, bare where it is an error. -/
def KnownResponse (r : RspWord) : Prop :=
  rspRsv r = 0#2 ∧ (rspStatus r).toNat ≤ 5 ∧ (rspStatus r ≠ 0#4 → rspReadyFlag r = 0#1 ∧ rspD1 r = 0#16 ∧ rspD0 r = 0#16)

theorem responseInv_iff (s : State) :
    ResponseInv s ↔ KnownResponse s.rspq ∧ (s.phase = .resp → rspStateFlag s.rspq = s.cstate.bit) :=
  ⟨fun h => ⟨⟨h.rsv_zero, h.status_known, h.error_bare⟩, h.state_shown⟩, fun ⟨⟨rsv, status, bare⟩, shown⟩ => ⟨rsv, status, bare, shown⟩⟩

theorem knownResponse_ok (rdy : Bool) (c : CState) (d1 d0 : Int) : KnownResponse (responseWord .ok rdy c d1 d0) := by
  simp [KnownResponse]

theorem knownResponse_err (e : ErrorKind) (c : CState) : KnownResponse (responseWord (.err e) false c 0 0) := by
  have known : (Status.err e).code % 16 ≤ 5 := (Nat.mod_le _ 16).trans (code_le_five (.err e))
  simp [KnownResponse, known]

/-! ## Words and edges -/

/-- A word answers with a known response that shows its CSTATE, and keeps the filter's and the classifier's invariants. -/
theorem runWord_keeps {w : CmdWord} {s t : State} (filter : FilterInv s) (classifier : ClassifierInv s)
    (run : runWord w s = .next t) :
    FilterInv t ∧ ClassifierInv t ∧ KnownResponse t.rspq ∧ rspStateFlag t.rspq = t.cstate.bit := by
  have raised (e : ErrorKind) : FilterInv (raiseError e s) ∧ ClassifierInv (raiseError e s) ∧
      KnownResponse (raiseError e s).rspq ∧ rspStateFlag (raiseError e s).rspq = (raiseError e s).cstate.bit :=
    ⟨filter.of_same rfl rfl rfl rfl, classifier.of_same ⟨rfl, rfl, rfl⟩ rfl, knownResponse_err e s.cstate, by simp⟩
  obtain ⟨i, decoded, asExec⟩ | ⟨e, -, illegal⟩ := runWord_cases w s
  · have fits := decodeWord_wellFormed decoded
    obtain ⟨e, -, rfl⟩ | ⟨accepted, d1, d0, rfl⟩ := exec_cases (asExec.symm.trans run)
    · exact raised e
    · exact ⟨(filter.effect fits).of_same rfl rfl rfl rfl, (classifier.effect fits accepted).of_same ⟨rfl, rfl, rfl⟩ rfl,
        knownResponse_ok .., by simp⟩
  · cases illegal.symm.trans run
    exact raised .illegal

/-- An edge that leaves the registers as they are and presents nothing new keeps a good state. -/
theorem GoodState.of_registersOf {s t : State} (good : GoodState s) (registers : registersOf t = registersOf s)
    (phase : t.phase = .resp → s.phase = .resp) : GoodState t := by
  obtain ⟨known, shown⟩ := (responseInv_iff s).mp good.response
  rw [← onHost_of_registersOf registers.symm]
  exact ⟨good.filter.of_same rfl rfl rfl rfl, good.classifier.of_same ⟨rfl, rfl, rfl⟩ rfl,
    (responseInv_iff _).mpr ⟨known, fun resp => shown (phase resp)⟩⟩

/-- Settles O47: a cleared filter, thresholds at 0 and the all-zero response. -/
theorem resetIsAGoodState : Obligations.ResetIsAGoodState := by
  unfold Obligations.ResetIsAGoodState
  exact ⟨filterInv_of_cleared rfl rfl rfl rfl, ⟨nofun, fun _ => ⟨rfl, rfl, rfl⟩⟩,
    (responseInv_iff _).mpr ⟨knownResponse_ok false .Safe 0 0, nofun⟩⟩

/-- Settles O46: the executing edge keeps it by what its word does, a reset edge leaves the reset registers, and no other edge
writes a register or presents a new response. -/
theorem everyStepKeepsTheGoodState : Obligations.EveryStepKeepsTheGoodState := by
  unfold Obligations.EveryStepKeepsTheGoodState
  intro s t good h
  have before : GoodState (consume s) := good.of_registersOf rfl id
  obtain ⟨-, edge⟩ |
    ⟨-, ⟨-, -, edge⟩ | ⟨_, _, -, edge⟩ | ⟨w, u, -, run, -, edge⟩ | ⟨-, -, edge⟩ | ⟨-, edge⟩⟩ := step_cases s
  all_goals cases edge.symm.trans h
  · exact GoodState.of_registersOf (s := State.reset) resetIsAGoodState rfl nofun
  · exact good.of_registersOf rfl nofun
  · exact good.of_registersOf rfl nofun
  · obtain ⟨filter, classifier, known, shown⟩ := runWord_keeps before.filter before.classifier run
    exact ⟨filter.of_same rfl rfl rfl rfl, classifier.of_same ⟨rfl, rfl, rfl⟩ rfl, (responseInv_iff _).mpr ⟨known, fun _ => shown⟩⟩
  · exact good.of_registersOf rfl nofun
  · exact before

end Sys2Proof.Machine
end

section
/-! The properties of Convert (40_converter.md R102, R103, R106), each from the formula without its clamp. -/

namespace Sys2Proof.Machine

/-- Below the saturation the code is its own minimum with 4095. -/
theorem convert_of_le {raw : Nat} (valid : raw ≤ 4095) : convert raw = -400 + (((raw * 1650 + 2047) / 4095 : Nat) : Int) := by
  rw [convert_eq_unclamped, Nat.min_eq_left valid]

theorem convert_mono {a b : Nat} (le : a ≤ b) : convert a ≤ convert b := by
  have quotients : (min a 4095 * 1650 + 2047) / 4095 ≤ (min b 4095 * 1650 + 2047) / 4095 :=
    Nat.div_le_div_right (by omega)
  rw [convert_eq_unclamped, convert_eq_unclamped]
  omega

/-- The first code of the temperature `q - 400`, below the upper end: the least whose numerator reaches `4095 * q`. -/
def firstCode (q : Nat) : Nat := (4095 * q - 398) / 1650

theorem firstCode_spec (q : Nat) : 4095 * q ≤ 1650 * firstCode q + 2047 ∧ 1650 * firstCode q ≤ 4095 * q - 398 := by
  unfold firstCode
  omega

/-- A code converts to `q - 400` where its numerator lies in the `q`-th interval of 4095 (R102). -/
theorem convert_eq_of_numerator {a q : Nat} (valid : a ≤ 4095) (low : 4095 * q ≤ 1650 * a + 2047)
    (high : 1650 * a + 2047 < 4095 * q + 4095) : convert a = -400 + (q : Int) := by
  have quotient : (a * 1650 + 2047) / 4095 = q := by omega
  rw [convert_of_le valid, quotient]

/-- The first code of a temperature and its successor both convert to it. -/
theorem convert_firstCode {q : Nat} (inRange : q ≤ 1650) :
    firstCode q + 1 ≤ 4095 ∧ convert (firstCode q) = -400 + (q : Int) ∧ convert (firstCode q + 1) = -400 + (q : Int) := by
  obtain ⟨reached, least⟩ := firstCode_spec q
  have valid : firstCode q + 1 ≤ 4095 := by omega
  exact ⟨valid, convert_eq_of_numerator (by omega) reached (by omega), convert_eq_of_numerator valid (by omega) (by omega)⟩

/-- Settles O10: 1650 is less than 4095, so one code moves the quotient by at most 1, and three codes move it by at least 1. -/
theorem convertIsMonotoneInUnitSteps : Obligations.ConvertIsMonotoneInUnitSteps := by
  unfold Obligations.ConvertIsMonotoneInUnitSteps
  refine ⟨by decide, by decide, by decide, fun a b lt _ => convert_mono lt.le, fun a above => ?_, fun a valid => ?_, fun t low high => ?_,
    fun a valid => ?_⟩
  · rw [convert_of_ge above.le, convert_of_ge le_rfl]
  · rw [convert_of_le valid, convert_of_le (by omega)]
    omega
  · obtain ⟨q, rfl⟩ : ∃ q : Nat, t = -400 + (q : Int) := ⟨(t + 400).toNat, by omega⟩
    exact ⟨firstCode q, convert_firstCode (by omega)⟩
  · rw [convert_of_le valid, convert_of_le (by omega)]
    omega

/-- Settles O11: the bias 2047 is the largest integer below half the odd divisor 4095. -/
theorem convertRoundsToTheNearest : Obligations.ConvertRoundsToTheNearest := by
  unfold Obligations.ConvertRoundsToTheNearest
  intro raw valid
  refine ⟨?_, ?_, convert_bounds raw⟩
  · rw [convert_of_le valid, abs_eq_max_neg]
    omega
  · rw [convert_of_le valid]
    split <;> omega

end Sys2Proof.Machine
end

section
/-! The Hysteresis Classifier (42_classifier.md): CINIT (R142), the refusals (R201, R204), the dead zone (R141) and what moves CSTATE
(R145). -/

namespace Sys2Proof.Machine

/-! ## Refused commands -/

/-- A refused command sets its error's ERRF bit, reports its status, and changes nothing else (R202, R203). -/
theorem exec_refused_report {i : Instr} {s : State} {e : ErrorKind} (refused : refusal i s = some e) :
    ∃ t, exec i s = .next t ∧ t = { s with errf := s.errf ||| e.errfBit, rspq := t.rspq } ∧
      rspStatus t.rspq = BitVec.ofNat 4 e.code ∧ rspReadyFlag t.rspq = 0#1 ∧ rspStateFlag t.rspq = s.cstate.bit ∧
      rspD1 t.rspq = 0#16 ∧ rspD0 t.rspq = 0#16 :=
  ⟨raiseError e s, exec_of_refused refused, rfl, by simp [Status.code]⟩

/-- Settles O20: CVALID is looked at first, so ERR_REINIT comes before ERR_THRESH. -/
theorem cinitRefusalsInPriorityOrder : Obligations.CinitRefusalsInPriorityOrder := by
  unfold Obligations.CinitRefusalsInPriorityOrder
  refine fun high low s => ⟨fun set => ?_, fun unset unordered => ?_⟩
  · exact exec_refused_report (e := .reinit) (by simp [refusal, set])
  · exact exec_refused_report (e := .thresh) (by simp [refusal, unset, unordered])

/-- Settles O22: both commands look at CVALID before anything else. -/
theorem classifierUseBeforeCinitIsRefused : Obligations.ClassifierUseBeforeCinitIsRefused := by
  unfold Obligations.ClassifierUseBeforeCinitIsRefused
  intro i s unset classifies
  have refused : refusal i s = some .uninit := by
    obtain ⟨v, rfl⟩ | ⟨raw, rfl⟩ := classifies <;> simp [refusal, unset]
  exact exec_refused_report refused

/-! ## The first CINIT -/

/-- Settles O19: it completes, and thresholds in range are read back from their registers. -/
theorem firstCinitStartsTheClassifier : Obligations.FirstCinitStartsTheClassifier := by
  unfold Obligations.FirstCinitStartsTheClassifier
  intro high low s fits unset ordered
  obtain ⟨highFits, lowFits⟩ := Bool.and_eq_true_iff.mp fits
  have zero : responseWord .ok false .Safe 0 0 = 0x0000000000#40 := by decide
  refine ⟨_, exec_cinit unset ordered, ?_, sext16_fieldOfSigned highFits, sext16_fieldOfSigned lowFits⟩
  rw [respond, zero]
  rfl

/-! ## The dead zone (R141) -/

/-- A value strictly between the thresholds moves neither state. -/
theorem classifyNext_dead_zone {v : Int} {s : State} (above : s.clow.toInt < v) (below : v < s.chigh.toInt) :
    classifyNext v s = s.cstate := by
  cases state : s.cstate with
  | Safe => exact (classifyNext_of_safe v state).2 below
  | Unsafe => exact (classifyNext_of_unsafe v state).2 above

/-- `t` has the classifier's registers and ERRF of `s`. -/
def SameClassifier (s t : State) : Prop :=
  t.cstate = s.cstate ∧ t.cvalid = s.cvalid ∧ t.chigh = s.chigh ∧ t.clow = s.clow ∧ t.errf = s.errf

/-- One CEVAL of a value in the dead zone, from its word: a value between two thresholds is in range. -/
theorem transact_ceval_dead_zone {v : Int} {s : State} (initialised : s.cvalid = true) (above : s.clow.toInt < v)
    (below : v < s.chigh.toInt) : ∃ t, transact (encode (.ceval v)) s = .next t ∧ SameClassifier s t := by
  have low := sext16_bounds s.clow
  have high := sext16_bounds s.chigh
  simp only [sext16] at low high
  have decoded : decodeWord (encode (.ceval v)) = .ok (.ceval v) := decodeWord_encode ((inSigned16_iff v).mpr (by omega))
  have run : runWord (encode (.ceval v)) s = .next (respond .ok false (classifyNext v s) 0 0 (classify v s)) := by
    simp only [runWord, decoded, exec_ceval initialised]
  exact ⟨_, transact_of_runWord run, classifyNext_dead_zone above below, rfl, rfl, rfl, rfl⟩

/-- Settles O23: by induction over the values, each of which leaves the thresholds that the next ones are compared with. -/
theorem deadZoneNeverMovesTheState : Obligations.DeadZoneNeverMovesTheState := by
  unfold Obligations.DeadZoneNeverMovesTheState
  intro values
  induction values with
  | nil => exact fun s initialised _ => ⟨s, rfl, rfl, initialised, rfl, rfl, rfl⟩
  | cons v values ih =>
    intro s initialised between
    obtain ⟨⟨above, below⟩, rest⟩ := List.forall_mem_cons.mp between
    obtain ⟨m, first, state, valid, high, low, errf⟩ := transact_ceval_dead_zone initialised above below
    obtain ⟨t, fold, state', valid', high', low', errf'⟩ := ih m (valid.trans initialised) (by rwa [high, low])
    refine ⟨t, ?_, state'.trans state, valid', high'.trans high, low'.trans low, errf'.trans errf⟩
    simp only [List.map_cons, transactAll, first, fold]

/-! ## What moves CSTATE (R145) -/

/-- The gate classifies against the thresholds and CSTATE that the update has left alone. -/
theorem effect_proc_cstate (raw : Nat) (s : State) :
    ((effect (.proc raw) s).fcount.val = 5 ∧
      (effect (.proc raw) s).cstate = classifyNext (tdiv (effect (.proc raw) s).fsum.toInt 5) s) ∨
    ((effect (.proc raw) s).fcount.val ≠ 5 ∧ (effect (.proc raw) s).cstate = s.cstate) := by
  simp only [effect, classifyWhenReady_fcount, classifyWhenReady_fsum]
  obtain ⟨full, gate⟩ | ⟨few, gate⟩ := classifyWhenReady_cases (filterUpdate (convert raw) s)
  · refine .inl ⟨full, ?_⟩
    rw [gate, classify_cstate]
    exact classifyNext_congr _ (by simp) (by simp) (by simp)
  · exact .inr ⟨few, by rw [gate, filterUpdate_cstate]⟩

/-- Settles O24: a refused command leaves CSTATE alone, and of the effects only three write it. -/
theorem onlyClassificationOrCinitMovesState : Obligations.OnlyClassificationOrCinitMovesState := by
  unfold Obligations.OnlyClassificationOrCinitMovesState
  intro i s t run moved
  obtain ⟨e, -, rfl⟩ | ⟨accepted, d1, d0, rfl⟩ := exec_cases run
  · exact absurd rfl moved
  · cases i with
    | nop | conv _ | rdreg _ | frst => exact absurd rfl moved
    | fupd x => exact absurd (filterUpdate_cstate x s) moved
    | ceval v => exact .inl ⟨v, rfl, refusal_classifying_eq_none (.inl ⟨v, rfl⟩) accepted, rfl⟩
    | proc raw =>
      obtain ⟨full, next⟩ | ⟨-, same⟩ := effect_proc_cstate raw s
      · exact .inr (.inl ⟨raw, rfl, refusal_classifying_eq_none (.inr ⟨raw, rfl⟩) accepted, full, next⟩)
      · exact absurd same moved
    | cinit high low =>
      obtain ⟨unset, ordered⟩ := refusal_cinit_eq_none accepted
      exact .inr (.inr ⟨high, low, rfl, unset, ordered, rfl⟩)

end Sys2Proof.Machine
end

section
/-! PROC (43_pipeline_and_control.md R160, R163): the whole pipeline in one command, its frame, and that it is the chain of the
single commands. -/

namespace Sys2Proof.Machine

/-! ## What PROC writes -/

/-- The gate writes CSTATE alone. -/
theorem classifyWhenReady_frame (s : State) : classifyWhenReady s = { s with cstate := (classifyWhenReady s).cstate } := by
  unfold classifyWhenReady
  split <;> rfl

@[simp] theorem effect_proc_fbuf (raw : Nat) (s : State) : (effect (.proc raw) s).fbuf = (filterUpdate (convert raw) s).fbuf :=
  classifyWhenReady_fbuf _
@[simp] theorem effect_proc_fsum (raw : Nat) (s : State) : (effect (.proc raw) s).fsum = (filterUpdate (convert raw) s).fsum :=
  classifyWhenReady_fsum _
@[simp] theorem effect_proc_fidx (raw : Nat) (s : State) : (effect (.proc raw) s).fidx = (filterUpdate (convert raw) s).fidx :=
  classifyWhenReady_fidx _
@[simp] theorem effect_proc_fcount (raw : Nat) (s : State) : (effect (.proc raw) s).fcount = (filterUpdate (convert raw) s).fcount :=
  classifyWhenReady_fcount _

/-- PROC writes the four filter registers and CSTATE. -/
theorem effect_proc_frame (raw : Nat) (s : State) :
    effect (.proc raw) s =
      { s with
        fbuf := (effect (.proc raw) s).fbuf
        fsum := (effect (.proc raw) s).fsum
        fidx := (effect (.proc raw) s).fidx
        fcount := (effect (.proc raw) s).fcount
        cstate := (effect (.proc raw) s).cstate } := by
  simp only [effect_proc_fbuf, effect_proc_fsum, effect_proc_fidx, effect_proc_fcount]
  calc effect (.proc raw) s
    _ = { filterUpdate (convert raw) s with cstate := (effect (.proc raw) s).cstate } := classifyWhenReady_frame _
    _ = _ := congrArg (fun u : State => { u with cstate := (effect (.proc raw) s).cstate }) (filterUpdate_frame (convert raw) s)

/-- Settles O26: the update's own equations, the gate's two cases, and a temperature that fits D0. -/
theorem procConvertsFiltersAndClassifies : Obligations.ProcConvertsFiltersAndClassifies := by
  unfold Obligations.ProcConvertsFiltersAndClassifies
  intro raw s initialised
  have count := filterUpdate_fcount (convert raw) s
  refine ⟨_, exec_proc initialised raw, congrArg (respond _ _ _ _ _) (effect_proc_frame raw s), ?_, fun warm => ⟨?_, ?_⟩,
    fun full => ⟨?_, ?_⟩, ?_, by simp, by simp, ?_, fun few => ?_, fun ready => ?_⟩
  · simpa [bits16] using filterUpdate_get (convert raw) s
  · simpa using filterUpdate_fsum_warm (convert raw) s warm
  · simp only [respond_fcount, effect_proc_fcount]
    omega
  · simp only [respond_fcount, effect_proc_fcount]
    omega
  · simpa using filterUpdate_fsum_steady (convert raw) s full
  · simp
  · rw [respond_rspq, rspD0_responseWord, toInt_bits16_convert]
  · have notFull : (filterUpdate (convert raw) s).fcount.val ≠ 5 := by omega
    obtain ⟨full, -⟩ | ⟨-, same⟩ := effect_proc_cstate raw s
    · exact absurd (effect_proc_fcount raw s ▸ full) notFull
    · simp [filterReady_eq_false notFull, smoothedField_warm notFull, same]
  · have full : (filterUpdate (convert raw) s).fcount.val = 5 := by omega
    obtain ⟨-, next⟩ | ⟨notFull, -⟩ := effect_proc_cstate raw s
    · simpa [(filterReady_iff _).mpr full, smoothedField_ready full, bits16] using next
    · exact absurd full (effect_proc_fcount raw s ▸ notFull)

/-! ## The chain of the single commands (R1) -/

/-- The update does not look at the response. -/
theorem filterUpdate_respond (x : Int) (st : Status) (rdy : Bool) (c : CState) (d1 d0 : Int) (s : State) :
    filterUpdate x (respond st rdy c d1 d0 s) = respond st rdy c d1 d0 (filterUpdate x s) := by
  unfold filterUpdate
  rw [apply_dite (respond st rdy c d1 d0)]
  rfl

/-- FUPD of CONV's temperature is the update PROC makes. -/
theorem exec_fupd_after_conv (raw : Nat) (s : State) :
    exec (.fupd (rspD0 (responseWord .ok false s.cstate 0 (convert raw))).toInt) (respond .ok false s.cstate 0 (convert raw) s) =
      .next (respond .ok (filterReady (filterUpdate (convert raw) s)) (filterUpdate (convert raw) s).cstate 0
        (smoothedField (filterUpdate (convert raw) s)) (filterUpdate (convert raw) s)) := by
  rw [rspD0_responseWord, toInt_bits16_convert, exec_fupd, filterUpdate_respond]
  rfl

/-- CEVAL of the smoothed value that FUPD's response carries is the classification PROC makes: the value fits D0. -/
theorem exec_ceval_after_fupd {u : State} (initialised : u.cvalid = true) (inv : FilterInv u) (full : u.fcount.val = 5) :
    exec (.ceval (rspD0 (responseWord .ok true u.cstate 0 (smoothedField u))).toInt) (respond .ok true u.cstate 0 (smoothedField u) u) =
      .next (respond .ok false (classifyWhenReady u).cstate 0 0 (classifyWhenReady u)) := by
  obtain ⟨low, high⟩ := inv.tdiv_range
  have back : (bits16 (smoothedField u)).toInt = tdiv u.fsum.toInt 5 := by
    rw [smoothedField_ready full]
    exact sext16_bits16 low high
  obtain ⟨-, gate⟩ | ⟨few, -⟩ := classifyWhenReady_cases u
  · rw [rspD0_responseWord, back, gate]
    exact exec_ceval (s := respond .ok true u.cstate 0 (smoothedField u) u) initialised _
  · exact absurd full few

/-- Settles O27: by whether the update fills the filter; then CEVAL follows, and otherwise the gate leaves the registers alone. -/
theorem procIsTheChainOfTheSingleCommands : Obligations.ProcIsTheChainOfTheSingleCommands := by
  unfold Obligations.ProcIsTheChainOfTheSingleCommands
  intro raw s initialised inv
  have conv := exec_conv raw s
  have fupd := exec_fupd_after_conv raw s
  have proc := exec_proc initialised raw
  have after := inv.filterUpdate_convert raw
  have stillInitialised : (filterUpdate (convert raw) s).cvalid = true := by rw [filterUpdate_cvalid, initialised]
  simp only [effect] at proc
  generalize filterUpdate (convert raw) s = u at *
  by_cases full : u.fcount.val = 5
  · have ceval := exec_ceval_after_fupd stillInitialised after full
    rw [(filterReady_iff u).mpr full] at fupd proc
    refine ⟨_, _, respond .ok false (classifyWhenReady u).cstate 0 0 (classifyWhenReady u), _, conv, fupd, ?_, proc, rfl,
      by simp, by simp, by simp, by simp⟩
    rw [if_pos (by simp)]
    exact ceval
  · obtain ⟨ready, -⟩ | ⟨-, gate⟩ := classifyWhenReady_cases u
    · exact absurd ready full
    · rw [filterReady_eq_false full] at fupd proc
      rw [gate] at proc
      exact ⟨_, _, _, _, conv, fupd, by rw [if_neg (by simp)], proc, rfl, by simp, by simp, by simp, by simp⟩

/-! ## The temperature range (R125, R163) -/

/-- Feeding a temperature to a filter of temperatures keeps it so. -/
theorem SamplesInRange.filterUpdate_convert {s : State} (samples : SamplesInRange s) (raw : Nat) :
    SamplesInRange (filterUpdate (convert raw) s) := by
  intro i
  rw [filterUpdate_get]
  split
  · rw [show sext16 (bits16 (convert raw)) = convert raw from toInt_bits16_convert raw]
    exact convert_bounds raw
  · exact samples i

/-- The smoothed field of temperatures is a temperature or the fill value 0, which lies in the range too (R77). -/
theorem smoothedField_temperature {s : State} (inv : FilterInv s) (samples : SamplesInRange s) :
    -400 ≤ smoothedField s ∧ smoothedField s ≤ 1250 := by
  by_cases full : s.fcount.val = 5
  · rw [smoothedField_ready full]
    exact inv.tdiv_temperature samples
  · rw [smoothedField_warm full]
    decide

/-- Settles O28: the update keeps the filter's invariants, the gate writes no filter register, and both data fields are temperatures. -/
theorem procKeepsSamplesInTemperatureRange : Obligations.ProcKeepsSamplesInTemperatureRange := by
  unfold Obligations.ProcKeepsSamplesInTemperatureRange
  intro raw s t initialised inv samples run
  cases (exec_proc initialised raw).symm.trans run
  have after := inv.filterUpdate_convert raw
  have samplesAfter := samples.filterUpdate_convert raw
  have field := smoothedField_temperature after samplesAfter
  have fieldBack : (bits16 (smoothedField (filterUpdate (convert raw) s))).toInt = smoothedField (filterUpdate (convert raw) s) :=
    sext16_bits16 (by omega) (by omega)
  refine ⟨?_, after.of_same (by simp) (by simp) (by simp) (by simp), ?_, ?_⟩
  · intro i
    simpa using samplesAfter i
  · rw [respond_rspq, rspD0_responseWord, toInt_bits16_convert]
    exact convert_bounds raw
  · rw [respond_rspq, rspD1_responseWord, fieldBack]
    exact field

end Sys2Proof.Machine
end

section
/-! What RDREG shows of the state (60_exceptions.md R210): every register but PHASE and RSPQ. -/

namespace Sys2Proof.Machine

/-! ## Each row of the map determines its register -/

theorem bits32_sext16_injective {v v' : BitVec 16} (same : bits32 (sext16 v) = bits32 (sext16 v')) : v = v' := by
  have back (u : BitVec 16) : sext32 (bits32 (sext16 u)) = u.toInt := by
    have range := sext16_bounds u
    exact sext32_bits32 (by omega) (by omega)
  exact BitVec.eq_of_toInt_eq ((back v).symm.trans ((congrArg sext32 same).trans (back v')))

theorem ofNat32_injective {m n : Nat} (hm : m < 2 ^ 32) (hn : n < 2 ^ 32) (same : BitVec.ofNat 32 m = BitVec.ofNat 32 n) : m = n := by
  have numbers := congrArg BitVec.toNat same
  rwa [BitVec.toNat_ofNat, BitVec.toNat_ofNat, Nat.mod_eq_of_lt hm, Nat.mod_eq_of_lt hn] at numbers

theorem cstat_injective {c c' : CState} {valid valid' : Bool}
    (same : 0#30 ++ (flagBit valid ++ c.bit) = 0#30 ++ (flagBit valid' ++ c'.bit)) : c = c' ∧ valid = valid' := by
  revert same
  cases c <;> cases c' <;> cases valid <;> cases valid' <;> decide

theorem errf_injective {e e' : BitVec 5} (same : 0#27 ++ e = 0#27 ++ e') : e = e' := by
  have read : e.zeroExtend 32 = e'.zeroExtend 32 := by rw [← zero_append_errf, same, zero_append_errf]
  have small (f : BitVec 5) : f.toNat % 4294967296 = f.toNat := Nat.mod_eq_of_lt (by omega)
  apply BitVec.eq_of_toNat_eq
  simpa [small] using congrArg BitVec.toNat read

theorem ring_ext {b b' : SampleRing} (slots : ∀ i, b.get i = b'.get i) : b = b' := by
  obtain ⟨_, _, _, _, _⟩ := b
  obtain ⟨_, _, _, _, _⟩ := b'
  simpa [SampleRing.get] using And.intro (slots 0) (And.intro (slots 1) (And.intro (slots 2) (And.intro (slots 3) (slots 4))))

/-! ## The whole view -/

/-- RDREG's data fields, put together, are the value of the register named (R161). -/
theorem exec_rdreg_data {index : Nat} {s a : State} {v : BitVec 32} (named : value32 index s = some v)
    (run : exec (.rdreg index) s = .next a) : rspD1 a.rspq ++ rspD0 a.rspq = v := by
  cases (exec_rdreg_of_some named).symm.trans run
  rw [respond_rspq, rspD1_responseWord, rspD0_responseWord, bits16_halves_append]

/-- Two states whose every register reads alike have the same registers. -/
theorem registersOf_eq_of_value32 {s t : State} (rspq : s.rspq = t.rspq)
    (view : ∀ index ≤ 0x000B, value32 index s = value32 index t) : registersOf s = registersOf t := by
  have row (index : Nat) (v v' : BitVec 32) (le : index ≤ 0x000B) (hs : value32 index s = some v) (ht : value32 index t = some v') :
      v = v' := Option.some.inj (hs.symm.trans ((view index le).trans ht))
  have fbuf : s.fbuf = t.fbuf := by
    refine ring_ext fun i => bits32_sext16_injective ?_
    match i with
    | 0 => exact row 0x00 _ _ (by decide) rfl rfl
    | 1 => exact row 0x01 _ _ (by decide) rfl rfl
    | 2 => exact row 0x02 _ _ (by decide) rfl rfl
    | 3 => exact row 0x03 _ _ (by decide) rfl rfl
    | 4 => exact row 0x04 _ _ (by decide) rfl rfl
  have fsum : s.fsum = t.fsum := row 0x05 _ _ (by decide) rfl rfl
  have fcount : s.fcount = t.fcount :=
    Fin.ext (ofNat32_injective (by omega) (by omega) (row 0x06 _ _ (by decide) rfl rfl))
  have fidx : s.fidx = t.fidx :=
    Fin.ext (ofNat32_injective (by omega) (by omega) (row 0x07 _ _ (by decide) rfl rfl))
  have chigh : s.chigh = t.chigh := bits32_sext16_injective (row 0x08 _ _ (by decide) rfl rfl)
  have clow : s.clow = t.clow := bits32_sext16_injective (row 0x09 _ _ (by decide) rfl rfl)
  obtain ⟨cstate, cvalid⟩ := cstat_injective (row 0x0A _ _ (by decide) rfl rfl)
  have errf : s.errf = t.errf := errf_injective (row 0x0B _ _ (by decide) rfl rfl)
  simp only [registersOf, fbuf, fsum, fcount, fidx, chigh, clow, cstate, cvalid, errf, rspq]

theorem value32_isSome {index : Nat} (le : index ≤ 0x000B) (s : State) : ∃ v, value32 index s = some v := by
  match index, le with
  | 0, _ | 1, _ | 2, _ | 3, _ | 4, _ | 5, _ | 6, _ | 7, _ | 8, _ | 9, _ | 10, _ | 11, _ => exact ⟨_, rfl⟩

/-- Settles O30: equal answers carry equal values, and the twelve values determine the registers. -/
theorem rdregObservesEveryRegister : Obligations.RdregObservesEveryRegister := by
  unfold Obligations.RdregObservesEveryRegister
  intro s t answers
  refine registersOf_eq_of_value32 rfl fun index le => ?_
  obtain ⟨v, named⟩ := value32_isSome le s
  obtain ⟨v', named'⟩ := value32_isSome le t
  obtain ⟨a, b, run, run', d1, d0⟩ := answers index le
  have same : v = v' := by rw [← exec_rdreg_data named run, ← exec_rdreg_data named' run', d1, d0]
  exact named.trans ((congrArg some same).trans named'.symm)

end Sys2Proof.Machine
end

section
/-! The handshake (70_reset_and_hazards.md R230, R234 to R236): the ports, and one equation per move of an edge. -/

namespace Sys2Proof.Machine

/-! ## The ports (R230) -/

theorem cmdReady_iff (rst : Bool) (s : State) : cmdReady rst s = true ↔ s.phase = .idle ∧ rst = false := by
  simp [cmdReady, and_comm]

theorem rspValid_iff (rst : Bool) (s : State) : rspValid rst s = true ↔ s.phase = .resp ∧ rst = false := by
  simp [rspValid, and_comm]

/-- Settles O37: both ports are the conjunction of PHASE and no reset, and rsp_word is gated by rsp_valid. -/
theorem portsShowThePhase : Obligations.PortsShowThePhase := by
  unfold Obligations.PortsShowThePhase
  exact fun rst s => ⟨cmdReady_iff rst s, rspValid_iff rst s, fun valid => if_pos valid, fun silent => if_neg (by simp [silent])⟩

/-! ## The moves of an edge without reset -/

/-- An edge in IDLE at which a command is offered accepts it (R234). -/
theorem step_accept {s : State} (running : (pinsNow s).rst = false) (idle : s.phase = .idle) (offered : (pinsNow s).cmdValid = true) :
    step s = .next (accept (pinsNow s).cmdWord (Config.latExtra s.latTick) (consume s)) := by
  simp [step, clockEdge, running, idle, offered]

/-- An edge in IDLE at which no command is offered only uses up the host's move (R211). -/
theorem step_idle {s : State} (running : (pinsNow s).rst = false) (idle : s.phase = .idle) (silent : (pinsNow s).cmdValid = false) :
    step s = .next (consume s) := by
  simp [step, clockEdge, running, idle, silent]

/-- An edge in BUSY before the due one counts down (R235). -/
theorem step_wait {s : State} {w : CmdWord} {n : Nat} (running : (pinsNow s).rst = false) (busy : s.phase = .busy w (n + 1)) :
    step s = .next { consume s with phase := .busy w n } := by
  simp [step, clockEdge, running, busy]

/-- The due edge in BUSY executes the accepted word (R235). -/
theorem step_execute {s t : State} {w : CmdWord} (running : (pinsNow s).rst = false) (due : s.phase = .busy w 0)
    (run : runWord w (consume s) = .next t) : step s = .next (present w t) := by
  simp [step, clockEdge, running, due, execute_next run]

/-- An edge in RESP at which the host is ready hands the response off (R236). -/
theorem step_handOff {s : State} (running : (pinsNow s).rst = false) (resp : s.phase = .resp) (ready : (pinsNow s).rspReady = true) :
    step s = .next (handOff (consume s)) := by
  simp [step, clockEdge, running, resp, ready]

/-- An edge in RESP at which the host is not ready only uses up the host's move (R238). -/
theorem step_hold {s : State} (running : (pinsNow s).rst = false) (resp : s.phase = .resp) (busy : (pinsNow s).rspReady = false) :
    step s = .next (consume s) := by
  simp [step, clockEdge, running, resp, busy]

/-! ## The statements about one edge -/

/-- Where cmd_ready = 0 the edge looks at neither command pin: it resets, or PHASE is not IDLE. -/
theorem clockEdge_ignores_command {p : Pins} {s : State} (notReady : cmdReady p.rst s = false) (extra : Nat) (valid : Bool)
    (word : CmdWord) : clockEdge extra p s = clockEdge extra { p with cmdValid := valid, cmdWord := word } s := by
  cases reset : p.rst with
  | true => simp [clockEdge, reset]
  | false =>
    have notIdle : s.phase ≠ .idle := by simpa [cmdReady, reset] using notReady
    cases phase : s.phase with
    | idle => exact absurd phase notIdle
    | resp => simp [clockEdge, reset, phase]
    | busy w n => cases n <;> simp [clockEdge, reset, phase]

/-- Settles O38: the accepting edge, the edges that read no command pin, and the idle edge without an offer. -/
theorem acceptanceCapturesTheOfferedWord : Obligations.AcceptanceCapturesTheOfferedWord := by
  unfold Obligations.AcceptanceCapturesTheOfferedWord
  refine fun s => ⟨fun ready offered => ?_, fun p rest valid word inputs notReady => ?_, fun idle running silent => ?_⟩
  · obtain ⟨idle, running⟩ := (cmdReady_iff _ _).mp ready
    exact ⟨_, step_accept running idle offered, rfl, rfl, rfl, rfl, rfl⟩
  · have pins : pinsNow s = p := by simp [pinsNow, inputs]
    have moved : consume { s with inputs := { p with cmdValid := valid, cmdWord := word } :: rest } = consume s := by
      simp [consume, inputs]
    simp only [step, pins, moved]
    exact clockEdge_ignores_command (s := consume s) notReady _ valid word
  · exact step_idle running idle silent

/-- Settles O39: the due edge runs the word on the state whose host list has moved on, which is `exec` of what it decodes to. -/
theorem stepRunsTheDecodedCommand : Obligations.StepRunsTheDecodedCommand := by
  unfold Obligations.StepRunsTheDecodedCommand
  refine fun s w due running => ⟨fun i t decoded run => ?_, fun i _ => ?_, fun e error => ?_, fun t => ⟨rfl, rfl, rfl⟩⟩
  · exact step_execute running due (by rw [runWord, decoded]; exact run)
  · obtain ⟨t, run, -⟩ := exec_next i (consume s)
    exact ⟨t, run⟩
  · exact step_execute running due (runWord_of_decode_error error _)

/-- Settles O40: the placed word's edge has quiet pins, and using them up leaves the state the word was placed in. -/
theorem placedWordRunsAtTheNextStep : Obligations.PlacedWordRunsAtTheNextStep := by
  unfold Obligations.PlacedWordRunsAtTheNextStep
  intro s w
  obtain ⟨t, run, -⟩ := runWord_next w { s with phase := .busy w 0 }
  have word : BitVec.ofNat 40 (w.toNat % 2 ^ 40) = w := by
    rw [Nat.mod_eq_of_lt w.isLt, BitVec.ofNat_toNat, BitVec.setWidth_eq]
  refine ⟨t, run, ?_⟩
  rw [State.withFetchWord, word]
  exact step_execute rfl rfl run

/-- Settles O41: the hand-off keeps the registers and records RSPQ; the edge without it is a hold. -/
theorem responseHoldsUntilTaken : Obligations.ResponseHoldsUntilTaken := by
  unfold Obligations.ResponseHoldsUntilTaken
  exact fun s resp running =>
    ⟨fun ready => ⟨_, step_handOff running resp ready, rfl, rfl, rfl, rfl⟩, fun busy => step_hold running resp busy⟩

end Sys2Proof.Machine
end

section
/-! Runs through the handshake (70_reset_and_hazards.md R235, R240, R241): a command's response LAT edges after its acceptance, and
a patient host's run as the fold of the command rules. -/

namespace Sys2Proof.Machine

/-- `s` with other coming moves and another count of accepted commands. -/
def atHost (inputs : List Pins) (tick : Nat) (s : State) : State := { s with inputs := inputs, latTick := tick }

/-- Using up one listed move. -/
theorem consume_eq_atHost {s : State} {p : Pins} {rest : List Pins} (inputs : s.inputs = p :: rest) :
    consume s = atHost rest s.latTick s := by
  simp [consume, atHost, inputs]

theorem pinsNow_of_inputs {s : State} {p : Pins} {rest : List Pins} (inputs : s.inputs = p :: rest) : pinsNow s = p := by
  simp [pinsNow, inputs]

/-! ## From acceptance to the response -/

/-- A block in BUSY with `n` edges before the due one presents its response after `n + 1` edges, if none of them is a reset. -/
theorem run_busy {w : CmdWord} {rest : List Pins} {n : Nat} {s t : State} {meanwhile : List Pins} (busy : s.phase = .busy w n)
    (inputs : s.inputs = meanwhile ++ rest) (length : meanwhile.length = n + 1) (running : ∀ q ∈ meanwhile, q.rst = false)
    (run : runWord w s = .next t) :
    Host.Core.run core (n + 1) s = .next (present w (onHost (atHost rest s.latTick s) t)) := by
  induction n generalizing s t meanwhile with
  | zero =>
    obtain ⟨q, rfl⟩ := List.length_eq_one_iff.mp length
    have notReset : (pinsNow s).rst = false := by
      rw [pinsNow_of_inputs inputs]
      exact running q (by simp)
    rw [run_succ 0 (step_execute notReset busy (runWord_onHost run (consume s))), consume_eq_atHost inputs]
    rfl
  | succ n ih =>
    obtain ⟨q, later, rfl⟩ := List.exists_cons_of_length_eq_add_one length
    have notReset : (pinsNow s).rst = false := by
      rw [pinsNow_of_inputs inputs]
      exact running q (by simp)
    have onward := ih (s := { consume s with phase := .busy w n }) (meanwhile := later) rfl (by simp [inputs]) (by simpa using length)
      (fun r mem => running r (by simp [mem])) (runWord_onHost run { consume s with phase := .busy w n })
    rw [run_succ (n + 1) (step_wait notReset busy)]
    exact onward

/-- A command offered in IDLE has its response presented LAT edges after the edge that accepts it. -/
theorem run_command {s t : State} {p : Pins} {meanwhile rest : List Pins} (idle : s.phase = .idle)
    (inputs : s.inputs = p :: (meanwhile ++ rest)) (notReset : p.rst = false) (offered : p.cmdValid = true)
    (length : meanwhile.length = Config.lat s.latTick) (running : ∀ q ∈ meanwhile, q.rst = false)
    (run : runWord p.cmdWord s = .next t) :
    Host.Core.run core (1 + Config.lat s.latTick) s =
      .next (present p.cmdWord (onHost (atHost rest (s.latTick + 1) s) t)) := by
  have pins := pinsNow_of_inputs inputs
  have edge := step_accept (by rw [pins]; exact notReset) idle (by rw [pins]; exact offered)
  have accepted := runWord_onHost run (accept p.cmdWord (Config.latExtra s.latTick) (consume s))
  have served := run_busy (s := accept p.cmdWord (Config.latExtra s.latTick) (consume s)) (rest := rest) rfl (by simp [inputs]) length
    running accepted
  rw [pins] at edge
  rw [Nat.add_comm, run_succ _ edge]
  exact served

/-- Settles O42: the response presented is the one the word gives on the registers at its acceptance. -/
theorem responseComesLatEdgesAfterAcceptance : Obligations.ResponseComesLatEdgesAfterAcceptance := by
  unfold Obligations.ResponseComesLatEdgesAfterAcceptance
  intro s p meanwhile rest idle inputs notReset offered length running
  obtain ⟨t, run, -⟩ := runWord_next p.cmdWord s
  exact ⟨t, _, run, run_command idle inputs notReset offered length running run, rfl, rfl, rfl, rfl, rfl⟩

/-! ## One turn of a patient host -/

/-- Edges at which the host makes no move leave a block in IDLE or RESP as it is (R238). -/
theorem run_quiet {n : Nat} {rest : List Pins} {s : State} (inputs : s.inputs = List.replicate n Pins.quiet ++ rest)
    (settled : s.phase = .idle ∨ s.phase = .resp) : Host.Core.run core n s = .next (atHost rest s.latTick s) := by
  induction n generalizing s with
  | zero =>
    rw [List.replicate_zero, List.nil_append] at inputs
    rw [← inputs]
    rfl
  | succ n ih =>
    rw [List.replicate_succ, List.cons_append] at inputs
    have pins := pinsNow_of_inputs inputs
    have edge : step s = .next (consume s) := by
      obtain idle | resp := settled
      · exact step_idle (by rw [pins]; rfl) idle (by rw [pins]; rfl)
      · exact step_hold (by rw [pins]; rfl) resp (by rw [pins]; rfl)
    rw [run_succ n edge, ih (s := consume s) (by simp [inputs]) settled]
    rfl

/-- What a transaction leaves: the word's rule applied beside the same host side, then the records. -/
theorem transact_cases {w : CmdWord} {s t : State} (done : transact w s = .next t) :
    ∃ u, runWord w s = .next u ∧ SameHostSide s u ∧ t = recorded w u := by
  obtain ⟨u, run, same⟩ := runWord_next w s
  cases (transact_of_runWord run).symm.trans done
  exact ⟨u, run, same, rfl⟩

/-- The edges of one turn at the count `tick`: the wait, the acceptance and LAT, the response held, and the taking. -/
def turnEdges (tick : Nat) (h : HostTurn) : Nat := h.before + ((1 + Config.lat tick) + (h.hold + 1))

/-- A response held for a number of edges and then taken. -/
theorem run_handOff {hold : Nat} {rest : List Pins} {s : State} (resp : s.phase = .resp)
    (inputs : s.inputs = List.replicate hold Pins.quiet ++ Pins.take :: rest) :
    Host.Core.run core (hold + 1) s = .next (handOff (atHost rest s.latTick s)) := by
  have edge := step_handOff (s := atHost (Pins.take :: rest) s.latTick s) rfl resp rfl
  rw [run_add _ _ (run_quiet inputs (.inr resp)), run_succ 0 edge]
  rfl

/-- An offered command, its response held and then taken: its rule applied, and its response recorded. -/
theorem run_offer_to_taking {w : CmdWord} {hold : Nat} {rest : List Pins} {s t : State} (idle : s.phase = .idle)
    (inputs : s.inputs = Pins.offer w :: (List.replicate (Config.lat s.latTick) Pins.quiet ++
      (List.replicate hold Pins.quiet ++ Pins.take :: rest)))
    (done : transact w s = .next t) :
    Host.Core.run core ((1 + Config.lat s.latTick) + (hold + 1)) s = .next (atHost rest (s.latTick + 1) t) := by
  obtain ⟨u, run, ⟨phase, -, executed, taken, -⟩, rfl⟩ := transact_cases done
  have served := run_command idle inputs rfl rfl List.length_replicate (fun q mem => List.eq_of_mem_replicate mem ▸ rfl) run
  rw [run_add _ _ served, run_handOff rfl rfl]
  simp [handOff, atHost, present, onHost, recorded, Pins.offer, phase, idle, executed, taken]

/-- A transaction beside other coming moves and another count. -/
theorem transact_atHost {w : CmdWord} {s t : State} (done : transact w s = .next t) (inputs : List Pins) (tick : Nat) :
    transact w (atHost inputs tick s) = .next (atHost inputs tick t) := by
  obtain ⟨u, run, ⟨phase, -, executed, taken, -⟩, rfl⟩ := transact_cases done
  rw [transact_of_runWord (s := atHost inputs tick s) (runWord_onHost run (atHost inputs tick s))]
  simp [atHost, onHost, recorded, phase, executed, taken]

/-- A turn ends with its command's rule applied and its response recorded. -/
theorem run_turn {h : HostTurn} {hs : List HostTurn} {s t : State} (idle : s.phase = .idle)
    (inputs : s.inputs = hostPins s.latTick (h :: hs)) (done : transact h.word s = .next t) :
    Host.Core.run core (turnEdges s.latTick h) s = .next (atHost (hostPins (s.latTick + 1) hs) (s.latTick + 1) t) := by
  rw [turnEdges, run_add _ _ (run_quiet inputs (.inl idle))]
  exact run_offer_to_taking (s := atHost _ s.latTick s) (t := atHost _ s.latTick t) idle rfl (transact_atHost done _ _)

/-! ## A whole run -/

theorem length_hostPins (tick : Nat) (h : HostTurn) (hs : List HostTurn) :
    (hostPins tick (h :: hs)).length = turnEdges tick h + (hostPins (tick + 1) hs).length := by
  simp only [hostPins, turnEdges, List.length_append, List.length_cons, List.length_replicate]
  omega

theorem transactAll_cons {w : CmdWord} {ws : List CmdWord} {s m : State} (first : transact w s = .next m) :
    transactAll (w :: ws) s = transactAll ws m := by
  simp only [transactAll, first]

theorem transact_next (w : CmdWord) (s : State) : ∃ t, transact w s = .next t := by
  obtain ⟨u, run, -⟩ := runWord_next w s
  exact ⟨_, transact_of_runWord run⟩

/-- The fold beside other coming moves and another count. -/
theorem transactAll_atHost {ws : List CmdWord} {s t : State} (fold : transactAll ws s = .next t) (inputs : List Pins) (tick : Nat) :
    transactAll ws (atHost inputs tick s) = .next (atHost inputs tick t) := by
  induction ws generalizing s with
  | nil =>
    cases fold
    rfl
  | cons w ws ih =>
    obtain ⟨m, first⟩ := transact_next w s
    rw [transactAll_cons first] at fold
    rw [transactAll_cons (transact_atHost first inputs tick)]
    exact ih fold

/-- What the fold leaves in the records: each word executed, one response for each, PHASE as it was. -/
theorem transactAll_records {ws : List CmdWord} {s t : State} (fold : transactAll ws s = .next t) :
    t.phase = s.phase ∧ t.executed = s.executed ++ ws ∧ t.taken.length = s.taken.length + ws.length := by
  induction ws generalizing s with
  | nil =>
    cases fold
    simp
  | cons w ws ih =>
    obtain ⟨m, first⟩ := transact_next w s
    rw [transactAll_cons first] at fold
    obtain ⟨phase, executed, taken⟩ := ih fold
    obtain ⟨u, -, ⟨samePhase, -, sameExecuted, sameTaken, -⟩, rfl⟩ := transact_cases first
    refine ⟨phase.trans samePhase, ?_, ?_⟩
    · simp [executed, recorded, sameExecuted]
    · simp only [taken, recorded, sameTaken, List.length_append, List.length_cons, List.length_nil]
      omega

/-- A patient host's run is the fold of the command rules, its list used up and each acceptance counted. -/
theorem run_hostPins {turns : List HostTurn} {s : State} (idle : s.phase = .idle) (inputs : s.inputs = hostPins s.latTick turns) :
    ∃ t, transactAll (turns.map HostTurn.word) s = .next t ∧
      Host.Core.run core s.inputs.length s = .next (atHost [] (s.latTick + turns.length) t) := by
  induction turns generalizing s with
  | nil =>
    have used : s.inputs = [] := inputs
    have whole : atHost [] s.latTick s = s := by
      rw [← used]
      rfl
    refine ⟨s, rfl, ?_⟩
    rw [used]
    exact congrArg Host.Outcome.next whole.symm
  | cons h hs ih =>
    obtain ⟨m, first⟩ := transact_next h.word s
    obtain ⟨phase, -, -⟩ := transactAll_records (transactAll_cons first (ws := []))
    have count : s.latTick + (hs.length + 1) = s.latTick + 1 + hs.length := by omega
    obtain ⟨t, fold, run⟩ := ih (s := atHost (hostPins (s.latTick + 1) hs) (s.latTick + 1) m) (phase.trans idle) rfl
    refine ⟨atHost m.inputs m.latTick t, ?_, ?_⟩
    · rw [List.map_cons, transactAll_cons first]
      exact transactAll_atHost fold m.inputs m.latTick
    · rw [inputs, length_hostPins, run_add _ _ (run_turn idle inputs first), List.length_cons, count]
      exact run

/-- Settles O43: the run leaves what the fold leaves, and with empty records the records are those of the commands alone. -/
theorem handshakeRunIsTheFoldOfTheCommandRules : Obligations.HandshakeRunIsTheFoldOfTheCommandRules := by
  unfold Obligations.HandshakeRunIsTheFoldOfTheCommandRules
  intro turns s idle inputs
  obtain ⟨t, fold, run⟩ := run_hostPins idle inputs
  obtain ⟨phase, executed, taken⟩ := transactAll_records fold
  rw [List.length_map] at taken
  refine ⟨t, _, fold, run, rfl, phase.trans idle, executed, taken, fun noneExecuted noneTaken => ⟨?_, rfl⟩⟩
  rw [noneExecuted, List.nil_append] at executed
  rw [noneTaken, List.length_nil, Nat.zero_add] at taken
  exact (runEnded_iff _ _).mpr ⟨executed, by rw [List.length_map]; exact taken, phase.trans idle⟩

end Sys2Proof.Machine
end

section
/-! The assembler in both directions (30_encoding.md R78, R79): what a line that assembles stands for, that every written command
assembles, and the operands that are refused. -/

namespace Sys2Proof.Machine

/-! ## What an assembled line stands for -/

theorem inRange_eq_ok {i j : Instr} (h : inRange i = .ok j) : j.wellFormed = true := by
  unfold inRange at h
  split at h
  · rename_i fits
    cases h
    exact fits
  · cases h

theorem inRange_of_wellFormed {i : Instr} (fits : i.wellFormed = true) : inRange i = .ok i := if_pos fits

theorem inRange_of_not_wellFormed {i : Instr} (outside : i.wellFormed = false) : inRange i = .error .operandOutOfRange :=
  if_neg (by simp [outside])

/-- Every shape checks the range of the instruction it makes. -/
theorem makeInstr_wellFormed {shape : AsmShape} {operands : List AsmOperand} {i : Instr} (h : makeInstr shape operands = .ok i) :
    i.wellFormed = true := by
  unfold makeInstr at h
  split at h
  · exact inRange_eq_ok h
  · split at h
    · exact inRange_eq_ok h
    · cases h
  · split at h
    · exact inRange_eq_ok h
    · cases h
  · split at h
    · exact inRange_eq_ok h
    · cases h
  · cases h

/-- A line's instruction is the one that the shape of its mnemonic makes of its operands. -/
theorem lineInstr_eq_ok {text : List Char} {i : Instr} (h : lineInstr text = .ok i) :
    ∃ shape operands, asmShape ((lineName text).map Char.toUpper) = some shape ∧
      readOperands (operandTexts (lineRest text)) = some operands ∧ makeInstr shape operands = .ok i := by
  unfold lineInstr at h
  cases known : asmShape ((lineName text).map Char.toUpper) with
  | none => simp [known] at h
  | some shape =>
    cases read : readOperands (operandTexts (lineRest text)) with
    | none => simp [known, read] at h
    | some operands => exact ⟨shape, operands, rfl, rfl, by simpa [known, read] using h⟩

/-- A line that gives a word, and is no raw `.word`, encodes its instruction. -/
theorem assembleLine_eq_word {line : List Char} {w : CmdWord} (h : assembleLine line = .ok (some w))
    (noRaw : lineName (stripLine line) ≠ ['.', 'w', 'o', 'r', 'd']) :
    ∃ i, lineInstr (stripLine line) = .ok i ∧ w = encode i := by
  unfold assembleLine at h
  by_cases blank : stripLine line = []
  · simp [blank] at h
  · simp only [if_neg blank, if_neg noRaw] at h
    cases made : lineInstr (stripLine line) with
    | error e => simp [made, Except.map] at h
    | ok i =>
      simp only [made, Except.map, Except.ok.injEq, Option.some.injEq] at h
      exact ⟨i, rfl, h.symm⟩

/-- Settles O51: by inversion of the line, of its instruction and of the range check. -/
theorem assembledLinesAreWellFormedCommands : Obligations.AssembledLinesAreWellFormedCommands := by
  unfold Obligations.AssembledLinesAreWellFormedCommands
  intro line w h noRaw
  obtain ⟨i, made, rfl⟩ := assembleLine_eq_word h noRaw
  obtain ⟨shape, operands, known, read, make⟩ := lineInstr_eq_ok made
  have fits := makeInstr_wellFormed make
  exact ⟨shape, operands, i, known, read, make, fits, rfl, decodeWord_encode fits⟩

/-- Settles O52: the five lines, assembled by evaluation. -/
theorem assemblerExamples : Obligations.AssemblerExamples := by
  unfold Obligations.AssemblerExamples
  decide

/-! ## What the operands of a written line are read as -/

theorem readOperands_one {text : List Char} {x : AsmOperand} (plain : OperandText text) (read : parseOperand text = some x) :
    readOperands (operandTexts (' ' :: text)) = some [x] := by
  rw [operandTexts, splitOperands_one fun c mem => (plain.2 c mem).2.1]
  simp only [readOperands, read]

theorem readOperands_two {first second : List Char} {x y : AsmOperand} (plain : OperandText first) (plain' : OperandText second)
    (read : parseOperand first = some x) (read' : parseOperand second = some y) :
    readOperands (operandTexts (' ' :: (first ++ ',' :: ' ' :: second))) = some [x, y] := by
  rw [operandTexts, splitOperands_comma fun c mem => (plain.2 c mem).2.1, splitOperands_one fun c mem => (plain'.2 c mem).2.1]
  simp only [readOperands, read, read']

/-- Where every operand is held by its text, a written command is read as the shape and operands that make it. -/
theorem written_is_read {i : Instr} {radix : AsmRadix} (held : radix = .decimal ∨ i.wellFormed = true) :
    ∃ shape operands, asmShape (mnemonicText i) = some shape ∧
      readOperands (operandTexts (operandsText radix i)) = some operands ∧ makeInstr shape operands = inRange i := by
  cases i with
  | nop | frst => exact ⟨_, [], rfl, rfl, rfl⟩
  | conv n | proc n | rdreg n =>
    obtain ⟨x, read, value⟩ := parseOperand_unsigned radix n
    exact ⟨_, [x], rfl, readOperands_one (operandText_unsigned radix n) read, by simp only [makeInstr, value]⟩
  | fupd v | ceval v =>
    obtain ⟨x, read, value⟩ := parseOperand_signed radix v held
    exact ⟨_, [x], rfl, readOperands_one (operandText_signed radix v) read, by simp only [makeInstr, value]⟩
  | cinit high low =>
    obtain ⟨x, read, value⟩ := parseOperand_signed radix high (held.imp_right fun fits => (Bool.and_eq_true_iff.mp fits).1)
    obtain ⟨y, read', value'⟩ := parseOperand_signed radix low (held.imp_right fun fits => (Bool.and_eq_true_iff.mp fits).2)
    exact ⟨_, [x, y], rfl, readOperands_two (operandText_signed radix high) (operandText_signed radix low) read read',
      by simp only [makeInstr, value, value']⟩

/-- A written command assembles as its range check says. -/
theorem assembleLine_asmLine {i : Instr} {name : List Char} {radix : AsmRadix} (same : name.map Char.toUpper = mnemonicText i)
    (held : radix = .decimal ∨ i.wellFormed = true) :
    assembleLine (asmLine name radix i) = (inRange i).map fun j => some (encode j) := by
  obtain ⟨shape, operands, known, read, make⟩ := written_is_read held
  rw [asmLine, assembleLine_written same (afterMnemonic_operandsText radix i) known read, make]

/-- Settles O53: the text of a command in range is read back in both radixes, and in decimal whatever the operand. -/
theorem everyWrittenCommandAssembles : Obligations.EveryWrittenCommandAssembles := by
  unfold Obligations.EveryWrittenCommandAssembles
  refine fun i name same => ⟨fun fits radix => ?_, fun outside => ?_⟩
  · rw [assembleLine_asmLine same (.inr fits), inRange_of_wellFormed fits]
    rfl
  · rw [assembleLine_asmLine same (.inl rfl), inRange_of_not_wellFormed outside]
    rfl

/-! ## Hexadecimal operands above 0xFFFF -/

theorem signed_pattern_wide {n : Nat} (wide : 0xFFFF < n) : (AsmOperand.pattern n).signed = none := if_neg (Nat.not_le.mpr wide)

theorem inUnsigned16_wide {n : Nat} (wide : 0xFFFF < n) : inUnsigned16 n = false := decide_eq_false (Nat.not_le.mpr wide)

/-- An operand written in either radix is read as something, in range or not. -/
theorem parseOperand_signed_isSome (radix : AsmRadix) (i : Int) : ∃ x, parseOperand (signedText radix i) = some x := by
  cases radix with
  | decimal =>
    obtain ⟨x, read, -⟩ := parseOperand_signed .decimal i (.inl rfl)
    exact ⟨x, read⟩
  | hexadecimal => exact ⟨_, parseOperand_hexadecimal _⟩

/-- A mnemonic whose shape refuses the pattern `n` as its one operand refuses it on a line. -/
theorem assembleLine_wide_one {name : List Char} {n : Nat} {i : Instr} {shape : AsmShape}
    (same : name.map Char.toUpper = mnemonicText i) (known : asmShape (mnemonicText i) = some shape)
    (refused : makeInstr shape [.pattern n] = .error .operandOutOfRange) :
    assembleLine (name ++ ' ' :: '0' :: 'x' :: natText 16 n) = .error .operandOutOfRange := by
  have plain : OperandText ('0' :: 'x' :: natText 16 n) := operandText_unsigned .hexadecimal n
  rw [assembleLine_written same (afterMnemonic_one plain) known (readOperands_one plain (parseOperand_hexadecimal n)), refused]
  rfl

/-- CINIT refuses a pair of operands of which one is no 16-bit number. -/
theorem assembleLine_cinit_refused {name first second : List Char} {x y : AsmOperand} (same : name.map Char.toUpper = "CINIT".toList)
    (plain : OperandText first) (plain' : OperandText second) (read : parseOperand first = some x)
    (read' : parseOperand second = some y) (wide : x.signed = none ∨ y.signed = none) :
    assembleLine (name ++ ' ' :: (first ++ ',' :: ' ' :: second)) = .error .operandOutOfRange := by
  have refused : makeInstr (.twoSigned .cinit) [x, y] = .error .operandOutOfRange := by
    obtain noValue | noValue := wide
    · simp only [makeInstr, noValue]
    · cases high : x.signed <;> simp only [makeInstr, high, noValue]
  rw [assembleLine_written (i := .cinit 0 0) same (afterMnemonic_two plain plain') rfl (readOperands_two plain plain' read read'), refused]
  rfl

/-- Settles O55: an unsigned operand fails the range check, a signed one has no value already. -/
theorem wideHexadecimalOperandIsRefused : Obligations.WideHexadecimalOperandIsRefused := by
  unfold Obligations.WideHexadecimalOperandIsRefused
  refine fun name n wide => ⟨fun mnemonic => ?_, fun same radix other => ?_⟩
  · have unsigned (make : Nat → Instr) (checks : (make n).wellFormed = inUnsigned16 n) :
        makeInstr (.oneUnsigned make) [.pattern n] = .error .operandOutOfRange :=
      inRange_of_not_wellFormed (checks.trans (inUnsigned16_wide wide))
    have signed (make : Int → Instr) : makeInstr (.oneSigned make) [.pattern n] = .error .operandOutOfRange := by
      simp only [makeInstr, signed_pattern_wide wide]
    simp only [List.mem_cons, List.not_mem_nil, or_false] at mnemonic
    obtain same | same | same | same | same := mnemonic
    · exact assembleLine_wide_one (i := .conv 0) same rfl (unsigned .conv rfl)
    · exact assembleLine_wide_one (i := .fupd 0) same rfl (signed .fupd)
    · exact assembleLine_wide_one (i := .ceval 0) same rfl (signed .ceval)
    · exact assembleLine_wide_one (i := .proc 0) same rfl (unsigned .proc rfl)
    · exact assembleLine_wide_one (i := .rdreg 0) same rfl (unsigned .rdreg rfl)
  · obtain ⟨x, read⟩ := parseOperand_signed_isSome radix other
    have plain : OperandText ('0' :: 'x' :: natText 16 n) := operandText_unsigned .hexadecimal n
    have plain' := operandText_signed radix other
    have hex := parseOperand_hexadecimal n
    have noValue := signed_pattern_wide wide
    exact ⟨assembleLine_cinit_refused same plain plain' hex read (.inl noValue),
      assembleLine_cinit_refused same plain' plain read hex (.inr noValue)⟩

end Sys2Proof.Machine
end
